-- ==== Sys2Proof/Word.lean ====
section
/-! DEFINITION. The words of the block and the bundle of its input ports. A one-bit register or port is a `Bool`,
`true` = 1 = high (00_scope.md R8; log entry 17). -/

namespace Sys2Proof

/-- One byte of the frame store (10_state.md R15). -/
abbrev Byte := BitVec 8

/-- A result register: 16 bits, two's complement (10_state.md R16). -/
abbrev Result := BitVec 16

/-- A pin identifier: `PIN_W` = 8 bits (00_scope.md R7, 10_state.md R23). -/
abbrev PinId := BitVec 8

/-- A level on the wire, `true` = high (00_scope.md R8). -/
abbrev Level := Bool

/-- The values on the input ports at one clock step (10_state.md R33); `clk` is the step itself. -/
structure PortsIn where
  /-- synchronous reset -/
  rst : Bool
  /-- sample enable: a clock step with `tick` = 1 is a tick step (00_scope.md R10) -/
  tick : Bool
  /-- command strobe, looked at only in IDLE -/
  start : Bool
  /-- operand of `ATTEMPT` -/
  pin : PinId
  /-- level of the wire, a clean 0 or 1 (20_memory.md R47) -/
  lineIn : Level
deriving DecidableEq, Repr, Inhabited

/-- The values on the output ports (10_state.md R33). -/
structure PortsOut where
  busy : Bool
  done : Bool
  ok : Bool
  lastHumidity : Result
  lastTemperature : Result
  pinSel : PinId
  lineOe : Bool
  lineOut : Level
deriving DecidableEq, Repr

end Sys2Proof
end

