-- ==== Sys2Proof/Config.lean ====
section
/-! DEFINITION. The named constants of 00_scope.md R6 and the parameters of R7, and the free values of the model. -/

namespace Sys2Proof.Config

/-! ## Fixed constants (R6; unaudited literals, 93_implementation_defined.md U14, log entry 18) -/

/-- `MAXTIMINGS`: transition slots scanned at most, slots 0 to 84. -/
def maxTimings : Nat := 85
/-- `TIMEOUT_COUNT`: the value of `COUNTER` that means timeout. -/
def timeoutCount : Nat := 255
/-- `BIT_THRESHOLD`: a strictly greater duration is a 1-bit. -/
def bitThreshold : Nat := 16
/-- `SKIP_SLOTS`: leading slots ignored. -/
def skipSlots : Nat := 4
/-- `FRAME_BITS`. -/
def frameBits : Nat := 40
/-- `FRAME_BYTES`. -/
def frameBytes : Nat := 5
/-- `UNSET` = -9999 = 0xD8F1, the result registers before any success. -/
def unset : Result := 0xD8F1#16
/-- `MAX_ATTEMPTS` of the host-level retry. -/
def maxAttempts : Nat := 20

/-! ## Decided parameters (R7) -/

/-- `LASTSTATE_INIT` = 1 (decision D5; U15, log entry 18). -/
def lastStateInit : Level := true
/-- `DATA_PARITY` = 0: data slots are the even slots from `SKIP_SLOTS` on (decision D6; U15, log entry 18). -/
def dataParity : Nat := 0

/-! ## Open parameters (R7, decision D4; log entry 4) -/

/-- How much `SETTLE_TICKS` exceeds its bound 1: left open by the spec, no value is known here. -/
opaque settleExtra : Nat
/-- How much `RELEASE_TICKS` exceeds its bound 1: left open by the spec, no value is known here. -/
opaque releaseExtra : Nat
/-- `SETTLE_TICKS`, any integer from 1 on. -/
def settleTicks : Nat := settleExtra + 1
/-- `RELEASE_TICKS`, any integer from 1 on. -/
def releaseTicks : Nat := releaseExtra + 1
/-- `DELAY_W`: the smallest width holding both durations. -/
def delayWidth : Nat := Nat.log2 (max settleTicks releaseTicks) + 1

/-! ## Free values -/

/-- The values on the input ports at a clock step for which `State.script` lists none: any value
(93_implementation_defined.md U4, log entry 1). -/
opaque freePorts : Nat → PortsIn

/-! ## The frame store's reset contents -/

/-- What a byte of the frame store that memory does not list reads as: its reset value 0 (10_state.md R32). -/
def frameDefault : Byte := 0#8

end Sys2Proof.Config
end

