-- ==== Sys2Proof/Machine/State.lean ====
section
/-! DEFINITION. The state of the machine (10_state.md R14), its input ports and the host's `READ`, its reset value
(R32), and the reasons a step can stop. -/

namespace Sys2Proof.Machine

/-- The step of the source's algorithm the block is in (10_state.md R17). -/
inductive Phase where
  | idle
  | driveLow
  | driveHigh
  | scan
  | validate
deriving DecidableEq, Repr

/-- The frame store, addresses 0 to 4 (20_memory.md R36): addresses strictly rising, no listed byte equal to what an
unlisted one reads as (`Config.frameDefault`); log entry 3. -/
abbrev Memory := List Host.Cell

/-- A `READ` in progress (45_retry_read.md R118), executed by the host. -/
structure ReadProgress where
  /-- its operand, the same for every attempt -/
  pin : PinId
  /-- n: the attempts finished so far -/
  attempts : Nat
  /-- an attempt has been given and the host waits for `done`; otherwise it waits for `busy` = 0 -/
  awaiting : Bool
deriving DecidableEq, Repr

/-- What a `READ` returns (R118). -/
structure ReadResult where
  success : Bool
  humidity : Result
  temperature : Result
  attempts : Nat
deriving DecidableEq, Repr

/-- The host's side of `READ` (R118, R122; log entry 9). -/
structure HostState where
  /-- a `READ` the host is about to call -/
  call : Option PinId
  /-- the `READ` in progress -/
  reading : Option ReadProgress
  /-- what the last `READ` returned -/
  returned : Option ReadResult
deriving DecidableEq, Repr

/-- A host with no `READ` to call, none in progress and none returned. -/
def HostState.quiet : HostState := { call := none, reading := none, returned := none }

/-- The state: the block's registers (R14), then the input ports with the port values to come, then the host. -/
structure State where
  /-- `FRAME[0..4]` (R15) -/
  frame : Memory
  /-- `LAST_HUMIDITY` (R16) -/
  lastHumidity : Result
  /-- `LAST_TEMPERATURE` (R16) -/
  lastTemperature : Result
  /-- `PHASE` (R17) -/
  phase : Phase
  /-- `SLOT` (R18) -/
  slot : BitVec 7
  /-- `COUNTER` (R19) -/
  counter : BitVec 8
  /-- `LASTSTATE` (R20) -/
  lastState : Level
  /-- `BITCOUNT` (R21) -/
  bitCount : BitVec 6
  /-- `DELAY`, of the open width `DELAY_W` (R22; log entry 4) -/
  delay : BitVec Config.delayWidth
  /-- `PIN` (R23) -/
  pin : PinId
  /-- `LINE_OE` (R24) -/
  lineOe : Bool
  /-- `LINE_OUT` (R24) -/
  lineOut : Level
  /-- `OK` (R25) -/
  ok : Bool
  /-- `DONE` (R26) -/
  done : Bool
  /-- `TIMED_OUT` (R28) -/
  timedOut : Bool
  /-- the input ports at the present clock step (R33; log entry 1) -/
  ports : PortsIn
  /-- the input ports at the clock steps to come, oldest first (R11, R34; log entry 1) -/
  script : List PortsIn
  /-- how many clock steps have been taken: the index of the free port values (log entry 1) -/
  edge : Nat
  /-- the host's `READ` (log entry 9) -/
  host : HostState
deriving DecidableEq, Repr

/-- Why the machine stops with a fault. Both are safe: no state that meets the block's invariant reaches them. -/
inductive Fault where
  /-- Raised by `step` when the selection word selects no row: a SLOT word with `i` 85 or more or `c` = 255, which
  30_encoding.md R63 says never occurs and selects nothing. Safe (log entry 7). -/
  | noOperation
  /-- Raised by `SHIFT0` and `SHIFT1` when `BITCOUNT div 8` is no address of the frame store: 20_memory.md R37 and R43
  say that no address outside 0 to 4 exists. Safe (log entry 6). -/
  | noFrameByte (address : Nat)
deriving DecidableEq, Repr

/-- Why an instruction is refused. -/
inductive Refusal where
  /-- Raised by `exec` for an instruction that has no meaning yet. Safe. No arm uses it. -/
  | notModelled (mnemonic : String)
deriving DecidableEq, Repr

/-- The state right after reset (10_state.md R32). The last four fields are the model's own (log entry 2). -/
def State.reset : State :=
  { frame := []
    lastHumidity := Config.unset
    lastTemperature := Config.unset
    phase := .idle
    slot := 0#7
    counter := 0#8
    lastState := true
    bitCount := 0#6
    delay := 0#Config.delayWidth
    pin := 0#8
    lineOe := false
    lineOut := true
    ok := false
    done := false
    timedOut := false
    ports := { rst := false, tick := false, start := false, pin := 0#8, lineIn := false }
    script := []
    edge := 0
    host := HostState.quiet }

end Sys2Proof.Machine
end

