-- ==== Sys2Proof/Machine/Flags.lean ====
section
/-! DEFINITION. The frame store's byte access, the conditions and the checksum the operations compute from it, and the
output ports. -/

namespace Sys2Proof.Machine

/-! ## The frame store as memory (20_memory.md R36; log entry 3) -/

/-- The byte at an address: the listed one, or `Config.frameDefault`. -/
def Memory.read : Memory → Nat → Byte
  | [], _ => Config.frameDefault
  | (b, v) :: m, a => if b = a then v else Memory.read m a

/-- The memory without any entry at an address. -/
def Memory.erase : Memory → Nat → Memory
  | [], _ => []
  | (b, v) :: m, a => if b = a then Memory.erase m a else (b, v) :: Memory.erase m a

/-- Lists a byte before the first entry of a higher address. -/
def Memory.insert : Memory → Nat → Byte → Memory
  | [], a, v => [(a, v)]
  | (b, w) :: m, a, v => if a < b then (a, v) :: (b, w) :: m else (b, w) :: Memory.insert m a v

/-- Writes one byte; writing what an unlisted address reads as removes the entry. -/
def Memory.write (m : Memory) (a : Nat) (v : Byte) : Memory :=
  if v = Config.frameDefault then Memory.erase m a else Memory.insert (Memory.erase m a) a v

/-- All five bytes 0: nothing listed (40_commands.md R80). -/
def Memory.cleared : Memory := []

/-- Entries from address `lo` on, strictly rising, inside the store, none equal to the unlisted byte. -/
def Memory.wfFrom : Nat → Memory → Bool
  | _, [] => true
  | lo, (a, v) :: m =>
    decide (lo ≤ a) && decide (a < Config.frameBytes) && decide (v ≠ Config.frameDefault) && Memory.wfFrom (a + 1) m

/-- The canonical form of the frame store. -/
def Memory.wf (m : Memory) : Bool := Memory.wfFrom 0 m

/-! ## Conditions and the checksum -/

/-- `sum8`: the exact sum of the four data bytes, low 8 bits kept (44_validate_commit.md R111, decision D34). -/
def sum8 (m : Memory) : Byte :=
  BitVec.ofNat 8 ((Memory.read m 0).toNat + (Memory.read m 1).toNat + (Memory.read m 2).toNat + (Memory.read m 3).toNat)

/-- `FRAME[4] = sum8(FRAME)` (R111). -/
def checksumEqual (s : State) : Bool := decide (Memory.read s.frame 4 = sum8 s.frame)

/-- `BITCOUNT ≥ 40` (R114). -/
def enoughBits (s : State) : Bool := decide (Config.frameBits ≤ s.bitCount.toNat)

/-- The validity predicate (R114). -/
def valid (s : State) : Bool := enoughBits s && checksumEqual s

/-- `BITCOUNT = 40`, the accumulator is full (30_encoding.md R63). -/
def full (s : State) : Bool := decide (s.bitCount.toNat = Config.frameBits)

/-- `BUSY` (10_state.md R27). -/
def busy (s : State) : Bool := decide (s.phase ≠ .idle)

/-- The code of a phase (R17); on no port. -/
def Phase.code : Phase → BitVec 3
  | .idle => 0#3
  | .driveLow => 1#3
  | .driveHigh => 2#3
  | .scan => 3#3
  | .validate => 4#3

/-- The output ports (R33). -/
def portsOut (s : State) : PortsOut :=
  { busy := busy s
    done := s.done
    ok := s.ok
    lastHumidity := s.lastHumidity
    lastTemperature := s.lastTemperature
    pinSel := s.pin
    lineOe := s.lineOe
    lineOut := s.lineOut }

/-- The frame as one 40-bit number `F` (20_memory.md R42). -/
def frameNumber (m : Memory) : BitVec 40 :=
  Memory.read m 0 ++ Memory.read m 1 ++ Memory.read m 2 ++ Memory.read m 3 ++ Memory.read m 4

end Sys2Proof.Machine
end

