-- ==== Sys2Proof/Machine/Ops.lean ====
section
/-! DEFINITION. The named operations the meanings share: the append to the frame store, the transition step, the end of
an attempt, reset. -/

namespace Sys2Proof.Machine

/-- The answer of a meaning. -/
abbrev Answer := Host.Outcome State Fault Refusal

/-- The byte of the frame store at an address, if the address exists (00_scope.md R9 `MemRead`, 20_memory.md R36). -/
def readFrame (s : State) (k : Nat) : Option Byte :=
  if k < Config.frameBytes then some (Memory.read s.frame k) else none

/-- `FRAME[k] <- v`, if the address exists (R9 `MemWrite`). -/
def writeFrame (s : State) (k : Nat) (v : Byte) : Option State :=
  if k < Config.frameBytes then some { s with frame := Memory.write s.frame k v } else none

/-- `((v << 1) | b)[7:0]` (20_memory.md R38). -/
def shiftIn (v : Byte) (b : Bool) : Byte := v <<< 1 ||| BitVec.setWidth 8 (BitVec.ofBool b)

/-- A number of tick steps as a value of `DELAY`; both durations fit (00_scope.md R7). -/
def delayOf (n : Nat) : BitVec Config.delayWidth := BitVec.ofNat Config.delayWidth n

/-- The byte address of the next bit, `BITCOUNT div 8` (R37). -/
def bitAddress (s : State) : Nat := s.bitCount.toNat / 8

/-- Appends a bit to the accumulator: shift it into the addressed byte and advance `BITCOUNT` (R37, R38, R65); at an
address that does not exist, the fault (log entry 6). -/
def appendBit (b : Bool) (s : State) : Answer :=
  match readFrame s (bitAddress s) with
  | none => .fault (.noFrameByte (bitAddress s))
  | some v =>
    match writeFrame s (bitAddress s) (shiftIn v b) with
    | none => .fault (.noFrameByte (bitAddress s))
    | some s' => .next { s' with bitCount := s.bitCount + 1#6 }

/-- `PinRead()`: the level on the port `line_in` at this tick step (00_scope.md R9, 20_memory.md R46). -/
def pinRead (s : State) : Level := s.ports.lineIn

/-- The transition step (42_pulse_sampling.md R95) with the end of the scan at slot 84 (R96). -/
def transition (s : State) : State :=
  { s with
    lastState := pinRead s
    counter := 0#8
    slot := s.slot + 1#7
    phase := if s.slot.toNat = Config.maxTimings - 1 then .validate else s.phase }

/-- A data slot: append the bit, then the transition step (43_classify_accumulate.md R103, R104). -/
def shiftOp (b : Bool) (s : State) : Answer :=
  match appendBit b s with
  | .next s' => .next (transition s')
  | .fault r => .fault r
  | .refused r => .refused r

/-- The end of an attempt, shared by `COMMIT` and `REJECT` (44_validate_commit.md R112, R113; 60_exceptions.md R130):
the result flag, the `done` pulse, back to IDLE. It is all the block has in the place of taking an exception. -/
def endAttempt (result : Bool) (s : State) : State :=
  { s with ok := result, done := true, phase := .idle }

/-- Every state element takes its reset value (40_commands.md R82, 10_state.md R32). The input side is not the block's
and stays; a `READ` of the host ends with its process (log entry 11). -/
def resetOp (s : State) : State :=
  { State.reset with ports := s.ports, script := s.script, edge := s.edge }

end Sys2Proof.Machine
end

