-- ==== Sys2Proof/Machine/Classify.lean ====
section
/-! DEFINITION. The transitions: `SKIPH`, `SKIPM`, `SHIFT0`, `SHIFT1`, `DROP` (43_classify_accumulate.md). -/

namespace Sys2Proof.Machine

/-- `SKIPH` (R101): the transition step only. -/
def execSkiph (s : State) : Answer := .next (transition s)

/-- `SKIPM` (R102): the transition step only. -/
def execSkipm (s : State) : Answer := .next (transition s)

/-- `SHIFT0` (R103): append a 0-bit, then the transition step. -/
def execShift0 (s : State) : Answer := shiftOp false s

/-- `SHIFT1` (R104): append a 1-bit, then the transition step. -/
def execShift1 (s : State) : Answer := shiftOp true s

/-- `DROP` (R105): the transition step only. -/
def execDrop (s : State) : Answer := .next (transition s)

end Sys2Proof.Machine
end

