-- ==== Sys2Proof/Machine/Commands.lean ====
section
/-! DEFINITION. Host commands and reset: `RESET`, `NOP`, `ATTEMPT` (40_commands.md). -/

namespace Sys2Proof.Machine

/-- `RESET` (R82). -/
def execReset (s : State) : Answer := .next (resetOp s)

/-- `NOP` (R81): ends the `done` pulse. -/
def execNop (s : State) : Answer := .next { s with done := false }

/-- `ATTEMPT pin` (R80). -/
def execAttempt (pin : PinId) (s : State) : Answer :=
  .next
    { s with
      pin := pin
      frame := Memory.cleared
      bitCount := 0#6
      slot := 0#7
      counter := 0#8
      lastState := Config.lastStateInit
      timedOut := false
      ok := false
      done := false
      lineOe := true
      lineOut := false
      delay := delayOf Config.settleTicks
      phase := .driveLow }

end Sys2Proof.Machine
end

