-- ==== Sys2Proof/Machine/Handshake.lean ====
section
/-! DEFINITION. The wake-up handshake: `WAIT`, `RAISE`, `RELEASE` (41_wakeup_handshake.md). -/

namespace Sys2Proof.Machine

/-- `DELAY - 1` in a register of `DELAY_W` bits; at 0, which R88 says cannot occur, it wraps (log entry 5). -/
def delayDown (d : BitVec Config.delayWidth) : BitVec Config.delayWidth := d - 1#Config.delayWidth

/-- `WAIT` (R88). -/
def execWait (s : State) : Answer := .next { s with delay := delayDown s.delay }

/-- `RAISE` (R89). -/
def execRaise (s : State) : Answer :=
  .next { s with lineOut := true, delay := delayOf Config.releaseTicks, phase := .driveHigh }

/-- `RELEASE` (R90). -/
def execRelease (s : State) : Answer := .next { s with lineOe := false, phase := .scan }

end Sys2Proof.Machine
end

