-- ==== Sys2Proof/Machine/Retry.lean ====
section
/-! DEFINITION. The host-level retry `READ` (45_retry_read.md): its start, and what the host does at each clock step
while it is in progress (log entries 9 and 10). -/

namespace Sys2Proof.Machine

/-- `READ pin` (R118): the host begins the procedure with n = 0, waiting for `busy` = 0. The rest of its pseudocode is
`hostMove`, clock step by clock step. -/
def execRead (pin : PinId) (s : State) : Answer :=
  .next
    { s with
      host := { call := none, reading := some { pin := pin, attempts := 0, awaiting := false }, returned := none } }

/-- The `READ` call that is due: one the host is about to make, with none in progress (the host is single-threaded). -/
def dueCall (s : State) : Option PinId :=
  match s.host.reading with
  | none => s.host.call
  | some _ => none

/-- "wait until busy = 0; give ATTEMPT pin" at one clock step (R118). -/
def hostGive (s : State) (r : ReadProgress) (p : PortsIn) : HostState × PortsIn :=
  if busy s then ({ s.host with reading := some { r with awaiting := false } }, { p with start := false })
  else ({ s.host with reading := some { r with awaiting := true } }, { p with start := true, pin := r.pin })

/-- `READ` returns (R118) with the values on the output ports at the `done` step; from that step on the host's own
commands are on the ports again. -/
def hostReturn (s : State) (success : Bool) (n : Nat) (p : PortsIn) : HostState × PortsIn :=
  ({ s.host with
      reading := none
      returned :=
        some
          { success := success
            humidity := s.lastHumidity
            temperature := s.lastTemperature
            attempts := n } },
    p)

/-- What the host does at a clock step, and the port values that result from its command: with no `READ` in progress
the given ones; during a `READ`, its pseudocode (R118), the next attempt at the very step where `done` = 1 (R119). -/
def hostMove (s : State) (p : PortsIn) : HostState × PortsIn :=
  match s.host.reading with
  | none => (s.host, p)
  | some r =>
    if r.awaiting then
      if s.done then
        if s.ok then hostReturn s true (r.attempts + 1) p
        else if r.attempts + 1 = Config.maxAttempts then hostReturn s false (r.attempts + 1) p
        else hostGive s { r with attempts := r.attempts + 1 } p
      else (s.host, { p with start := false })
    else hostGive s r p

/-- The environment's port values of the coming clock step: the oldest of the script, or free ones (log entry 1). -/
def comingPorts (s : State) : PortsIn :=
  match s.script with
  | [] => Config.freePorts s.edge
  | p :: _ => p

/-- A rising edge of `clk`: the ports take the values of this clock step, the host having made its move. -/
def clockEdge (s : State) : State :=
  { s with
    ports := (hostMove s (comingPorts s)).2
    host := (hostMove s (comingPorts s)).1
    script := s.script.tail
    edge := s.edge + 1 }

end Sys2Proof.Machine
end

