-- ==== Sys2Proof/Machine/Sampling.lean ====
section
/-! DEFINITION. Pulse sampling: `COUNT`, `TMO` (42_pulse_sampling.md). -/

namespace Sys2Proof.Machine

/-- `COUNT` (R93). -/
def execCount (s : State) : Answer := .next { s with counter := s.counter + 1#8 }

/-- `TMO` (R94). -/
def execTmo (s : State) : Answer :=
  .next { s with counter := BitVec.ofNat 8 Config.timeoutCount, timedOut := true, phase := .validate }

end Sys2Proof.Machine
end

