-- ==== Sys2Proof/Machine/Validate.lean ====
section
/-! DEFINITION. The checksum validator: `COMMIT`, `REJECT` (44_validate_commit.md). -/

namespace Sys2Proof.Machine

/-- `COMMIT` (R112): the two integer bytes, zero-extended, to the result registers. -/
def execCommit (s : State) : Answer :=
  .next
    (endAttempt true
      { s with
        lastHumidity := BitVec.setWidth 16 (Memory.read s.frame 0)
        lastTemperature := BitVec.setWidth 16 (Memory.read s.frame 2) })

/-- `REJECT` (R113): the result registers stay. -/
def execReject (s : State) : Answer := .next (endAttempt false s)

end Sys2Proof.Machine
end

