-- ==== Sys2Proof/Syntax.lean ====
section
/-! DEFINITION. The operations of the block and the host's pseudo-operation: one constructor per row of
spec/opcode_table.json (30_encoding.md R61, R78), and the selection words that select them (R56). -/

namespace Sys2Proof

/-- One constructor per row of the operation table. A SLOT row carries the fields `i` = `SLOT` and `c` = `COUNTER` of
its selection word (R63), `REJECT` the bits `n`, `s` of its own (R64). These fields are the word's copy of registers:
by their rules the operations have no operands but `pin`, and their meanings read the registers (log entry 8). -/
inductive Instr where
  /-- R82 -/
  | reset
  /-- R81 -/
  | nop
  /-- R80 -/
  | attempt (pin : PinId)
  /-- R88 -/
  | wait
  /-- R89 -/
  | raise
  /-- R90 -/
  | release
  /-- R93 -/
  | count (i : BitVec 7) (c : BitVec 8)
  /-- R94; its row fixes `c` = 254 -/
  | tmo (i : BitVec 7)
  /-- R101 -/
  | skiph (i : BitVec 7) (c : BitVec 8)
  /-- R102 -/
  | skipm (i : BitVec 7) (c : BitVec 8)
  /-- R103 -/
  | shift0 (i : BitVec 7) (c : BitVec 8)
  /-- R104 -/
  | shift1 (i : BitVec 7) (c : BitVec 8)
  /-- R105 -/
  | drop (i : BitVec 7) (c : BitVec 8)
  /-- R112 -/
  | commit
  /-- R113; `n`: enough bits, `s`: checksum equal -/
  | reject (n s : Bool)
  /-- R118, executed by the host -/
  | read (pin : PinId)
deriving DecidableEq, Repr

/-- The name of the operation's row in spec/opcode_table.json. -/
def Instr.mnemonic : Instr → String
  | .reset => "RESET"
  | .nop => "NOP"
  | .attempt _ => "ATTEMPT"
  | .wait => "WAIT"
  | .raise => "RAISE"
  | .release => "RELEASE"
  | .count _ _ => "COUNT"
  | .tmo _ => "TMO"
  | .skiph _ _ => "SKIPH"
  | .skipm _ _ => "SKIPM"
  | .shift0 _ _ => "SHIFT0"
  | .shift1 _ _ => "SHIFT1"
  | .drop _ _ => "DROP"
  | .commit => "COMMIT"
  | .reject _ _ => "REJECT"
  | .read _ => "READ"

/-- A selection word of one of the formats of R56. `pseudo` stands for the host's `READ`, which has no word of its own
(R75); it carries the operand the host gives. -/
inductive SelWord where
  /-- RST, the port `rst` -/
  | rst (w : BitVec 1)
  /-- CMD, start then pin (R60) -/
  | cmd (w : BitVec 9)
  /-- SEQ, p then l (R62) -/
  | seq (w : BitVec 2)
  /-- SLOT, t, f, i, c (R63) -/
  | slot (w : BitVec 17)
  /-- VAL, n then s (R64) -/
  | val (w : BitVec 2)
  /-- the host's `READ` -/
  | pseudo (pin : PinId)
deriving DecidableEq, Repr

end Sys2Proof
end

