-- ==== Sys2Proof/Machine/Dispatch.lean ====
section
/-! DEFINITION. The meaning of every operation: one arm per constructor of `Instr`. -/

namespace Sys2Proof.Machine

def exec (i : Instr) (s : State) : Host.Outcome State Fault Refusal :=
  match i with
  | .reset => Sys2Proof.Machine.execReset s
  | .nop => Sys2Proof.Machine.execNop s
  | .attempt pin => Sys2Proof.Machine.execAttempt pin s
  | .wait => Sys2Proof.Machine.execWait s
  | .raise => Sys2Proof.Machine.execRaise s
  | .release => Sys2Proof.Machine.execRelease s
  | .count _ _ => Sys2Proof.Machine.execCount s
  | .tmo _ => Sys2Proof.Machine.execTmo s
  | .skiph _ _ => Sys2Proof.Machine.execSkiph s
  | .skipm _ _ => Sys2Proof.Machine.execSkipm s
  | .shift0 _ _ => Sys2Proof.Machine.execShift0 s
  | .shift1 _ _ => Sys2Proof.Machine.execShift1 s
  | .drop _ _ => Sys2Proof.Machine.execDrop s
  | .commit => Sys2Proof.Machine.execCommit s
  | .reject _ _ => Sys2Proof.Machine.execReject s
  | .read pin => Sys2Proof.Machine.execRead pin s

end Sys2Proof.Machine
end

