-- ==== Sys2Proof/WellFormed.lean ====
section
/-! DEFINITION. The constraints a row of spec/opcode_table.json puts on its fields beyond the bit pattern
(30_encoding.md R78: min, max, parity, exclude). -/

namespace Sys2Proof

/-- An inclusive unsigned range of a field. -/
def inRange (lo hi n : Nat) : Bool := decide (lo ≤ n) && decide (n ≤ hi)

/-- The `i` range of a data slot: even, 4 to 84 (R63). -/
def dataSlotField (i : BitVec 7) : Bool :=
  inRange Config.skipSlots (Config.maxTimings - 1) i.toNat && decide (i.toNat % 2 = Config.dataParity)

/-- A term the table's constraints allow. -/
def Instr.wellFormed : Instr → Bool
  | .reset => true
  | .nop => true
  | .attempt _ => true
  | .wait => true
  | .raise => true
  | .release => true
  | .count i c => inRange 0 (Config.maxTimings - 1) i.toNat && inRange 0 (Config.timeoutCount - 2) c.toNat
  | .tmo i => inRange 0 (Config.maxTimings - 1) i.toNat
  | .skiph i c => inRange 0 (Config.skipSlots - 1) i.toNat && inRange 0 (Config.timeoutCount - 1) c.toNat
  | .skipm i c =>
    inRange (Config.skipSlots + 1) (Config.maxTimings - 2) i.toNat && decide (i.toNat % 2 ≠ Config.dataParity)
      && inRange 0 (Config.timeoutCount - 1) c.toNat
  | .shift0 i c => dataSlotField i && inRange 0 Config.bitThreshold c.toNat
  | .shift1 i c => dataSlotField i && inRange (Config.bitThreshold + 1) (Config.timeoutCount - 1) c.toNat
  | .drop i c => dataSlotField i && inRange 0 (Config.timeoutCount - 1) c.toNat
  | .commit => true
  | .reject n s => !(n && s)
  | .read _ => true

end Sys2Proof
end

