-- ==== Sys2Proof/Decode.lean ====
section
/-! DEFINITION. From selection words to operations (30_encoding.md R60 to R64, R78) and back; the operation table of
spec/opcode_table.json as data; the words as the host numbers them. -/

namespace Sys2Proof

/-! ## Building a selection word from its fields -/

/-- CMD: start, then the pin bits 7 to 0 (R60). -/
def cmdWord (start : Bool) (pin : PinId) : BitVec 9 := BitVec.ofBool start ++ pin

/-- SEQ: p, then l (R62). -/
def seqWord (p l : Bool) : BitVec 2 := BitVec.ofBool p ++ BitVec.ofBool l

/-- SLOT: t, f, i (7 bits), c (8 bits), most significant first (R63). -/
def slotWord (t f : Bool) (i : BitVec 7) (c : BitVec 8) : BitVec 17 :=
  BitVec.ofBool t ++ BitVec.ofBool f ++ i ++ c

/-- VAL: n, then s (R64). -/
def valWord (n s : Bool) : BitVec 2 := BitVec.ofBool n ++ BitVec.ofBool s

/-! ## Decoding -/

/-- Why a word selects no operation. -/
inductive DecodeError where
  /-- RST word 0: the reset port is not asserted, so RST selects nothing (R61) -/
  | resetNotAsserted
  /-- SLOT word with `i` 85 or more (R63: selects nothing) -/
  | slotBeyondScan
  /-- SLOT word with `c` = 255, the timeout sentinel (R63, R68: selects nothing) -/
  | countSentinel
deriving DecidableEq, Repr

/-- RST: 1 selects `RESET`. -/
def decodeRst (w : BitVec 1) : Except DecodeError Instr :=
  if w.getLsbD 0 then .ok .reset else .error .resetNotAsserted

/-- CMD (R60). -/
def decodeCmd (w : BitVec 9) : Instr :=
  if w.getLsbD 8 then .attempt (w.extractLsb' 0 8) else .nop

/-- SEQ (R62): x0 `WAIT`, 01 `RAISE`, 11 `RELEASE`. -/
def decodeSeq (w : BitVec 2) : Instr :=
  if w.getLsbD 0 then (if w.getLsbD 1 then .release else .raise) else .wait

/-- `bit(c)`: 1 when the count is greater than the threshold, compared as unsigned numbers (R106). -/
def bitOf (c : BitVec 8) : Bool := decide (Config.bitThreshold < c.toNat)

/-- The operation of a transition, in the order handshake, marker, full, threshold (R100, R129 (4)). -/
def decodeTransition (f : Bool) (i : BitVec 7) (c : BitVec 8) : Instr :=
  if i.toNat < Config.skipSlots then .skiph i c
  else if i.toNat % 2 ≠ Config.dataParity then .skipm i c
  else if f then .drop i c
  else if bitOf c then .shift1 i c
  else .shift0 i c

/-- SLOT (R63). -/
def decodeSlot (w : BitVec 17) : Except DecodeError Instr :=
  let t := w.getLsbD 16
  let f := w.getLsbD 15
  let i : BitVec 7 := w.extractLsb' 8 7
  let c : BitVec 8 := w.extractLsb' 0 8
  if Config.maxTimings ≤ i.toNat then .error .slotBeyondScan
  else if Config.timeoutCount ≤ c.toNat then .error .countSentinel
  else if t then .ok (decodeTransition f i c)
  else if c.toNat = Config.timeoutCount - 1 then .ok (.tmo i)
  else .ok (.count i c)

/-- VAL (R64): 11 `COMMIT`, the others `REJECT`. -/
def decodeVal (w : BitVec 2) : Instr :=
  if w.getLsbD 1 && w.getLsbD 0 then .commit else .reject (w.getLsbD 1) (w.getLsbD 0)

/-- The operation a selection word selects, or why there is none: total on every word. -/
def decode : SelWord → Except DecodeError Instr
  | .rst w => decodeRst w
  | .cmd w => .ok (decodeCmd w)
  | .seq w => .ok (decodeSeq w)
  | .slot w => decodeSlot w
  | .val w => .ok (decodeVal w)
  | .pseudo pin => .ok (.read pin)

/-! ## Encoding -/

/-- The selection word of an operation, from the pattern of its row; a bit the pattern does not look at is 0
(log entry 14). -/
def encode : Instr → SelWord
  | .reset => .rst 1#1
  | .nop => .cmd (cmdWord false 0#8)
  | .attempt pin => .cmd (cmdWord true pin)
  | .wait => .seq (seqWord false false)
  | .raise => .seq (seqWord false true)
  | .release => .seq (seqWord true true)
  | .count i c => .slot (slotWord false false i c)
  | .tmo i => .slot (slotWord false false i 254#8)
  | .skiph i c => .slot (slotWord true false i c)
  | .skipm i c => .slot (slotWord true false i c)
  | .shift0 i c => .slot (slotWord true false i c)
  | .shift1 i c => .slot (slotWord true false i c)
  | .drop i c => .slot (slotWord true true i c)
  | .commit => .val (valWord true true)
  | .reject n s => .val (valWord n s)
  | .read pin => .pseudo pin

/-! ## The operation table as data (R78) -/

/-- The formats of the table. -/
inductive Format where
  | rst | cmd | seq | slot | val | pseudo
deriving DecidableEq, Repr

/-- A field of a word with an inclusive unsigned range and, where the row has one, a parity (`some 0` even, `some 1`
odd). A fixed group of bits is a field whose range is one value. -/
structure FieldRow where
  hi : Nat
  lo : Nat
  min : Nat
  max : Nat
  parity : Option Nat := none
deriving DecidableEq, Repr

/-- A row of spec/opcode_table.json: fixed bits and fields, and the words it excludes. -/
structure Row where
  mnemonic : String
  format : Format
  fields : List FieldRow
  exclude : List Nat := []
deriving DecidableEq, Repr

/-- The value of bits `hi` down to `lo` of a word (00_scope.md R8). -/
def bitsOf (hi lo w : Nat) : Nat := w / 2 ^ lo % 2 ^ (hi + 1 - lo)

/-- A word meets a field's constraints. -/
def FieldRow.accepts (r : FieldRow) (w : Nat) : Bool :=
  inRange r.min r.max (bitsOf r.hi r.lo w) &&
    (match r.parity with
     | none => true
     | some p => decide (bitsOf r.hi r.lo w % 2 = p))

/-- A word selects a row when it meets all its fixed bits and fields and is none of the excluded words (R78). -/
def Row.accepts (r : Row) (w : Nat) : Bool :=
  r.fields.all (fun f => f.accepts w) && !r.exclude.contains w

/-- The rows of spec/opcode_table.json, in its order. -/
def opcodeTable : List Row := [
  ⟨"RESET", .rst, [⟨0, 0, 1, 1, none⟩], []⟩,
  ⟨"NOP", .cmd, [⟨8, 8, 0, 0, none⟩], []⟩,
  ⟨"ATTEMPT", .cmd, [⟨8, 8, 1, 1, none⟩, ⟨7, 0, 0, 255, none⟩], []⟩,
  ⟨"WAIT", .seq, [⟨0, 0, 0, 0, none⟩], []⟩,
  ⟨"RAISE", .seq, [⟨1, 0, 1, 1, none⟩], []⟩,
  ⟨"RELEASE", .seq, [⟨1, 0, 3, 3, none⟩], []⟩,
  ⟨"COUNT", .slot, [⟨16, 16, 0, 0, none⟩, ⟨14, 8, 0, 84, none⟩, ⟨7, 0, 0, 253, none⟩], []⟩,
  ⟨"TMO", .slot, [⟨16, 16, 0, 0, none⟩, ⟨14, 8, 0, 84, none⟩, ⟨7, 0, 254, 254, none⟩], []⟩,
  ⟨"SKIPH", .slot, [⟨16, 16, 1, 1, none⟩, ⟨14, 8, 0, 3, none⟩, ⟨7, 0, 0, 254, none⟩], []⟩,
  ⟨"SKIPM", .slot, [⟨16, 16, 1, 1, none⟩, ⟨14, 8, 5, 83, some 1⟩, ⟨7, 0, 0, 254, none⟩], []⟩,
  ⟨"SHIFT0", .slot, [⟨16, 15, 2, 2, none⟩, ⟨14, 8, 4, 84, some 0⟩, ⟨7, 0, 0, 16, none⟩], []⟩,
  ⟨"SHIFT1", .slot, [⟨16, 15, 2, 2, none⟩, ⟨14, 8, 4, 84, some 0⟩, ⟨7, 0, 17, 254, none⟩], []⟩,
  ⟨"DROP", .slot, [⟨16, 15, 3, 3, none⟩, ⟨14, 8, 4, 84, some 0⟩, ⟨7, 0, 0, 254, none⟩], []⟩,
  ⟨"COMMIT", .val, [⟨1, 0, 3, 3, none⟩], []⟩,
  ⟨"REJECT", .val, [⟨1, 1, 0, 1, none⟩, ⟨0, 0, 0, 1, none⟩], [3]⟩,
  ⟨"READ", .pseudo, [⟨7, 0, 0, 255, none⟩], []⟩]

/-- The format of a selection word. -/
def SelWord.format : SelWord → Format
  | .rst _ => .rst
  | .cmd _ => .cmd
  | .seq _ => .seq
  | .slot _ => .slot
  | .val _ => .val
  | .pseudo _ => .pseudo

/-- The word's bits as a number, bit 0 the least significant. -/
def SelWord.value : SelWord → Nat
  | .rst w => w.toNat
  | .cmd w => w.toNat
  | .seq w => w.toNat
  | .slot w => w.toNat
  | .val w => w.toNat
  | .pseudo pin => pin.toNat

/-- The mnemonics of the rows of the table that a word selects. -/
def rowsSelecting (w : SelWord) : List String :=
  (opcodeTable.filter fun r => r.format == w.format && r.accepts w.value).map Row.mnemonic

/-! ## Words as the host numbers them -/

/-- The selection word meant by a word of `nbits` bits. The table's words of different formats share their numbers, so
the format is read from the length; a byte holds an RST, a SEQ or a VAL word, and where several rows share its value
the first of them in the table's order is taken (log entry 12). -/
def tableWord (nbits w : Nat) : Option SelWord :=
  if nbits = 0 then some (.pseudo (BitVec.ofNat 8 w))
  else if nbits ≤ 8 then
    (if w = 1 then some (.rst 1#1)
     else if w < 4 then some (.seq (BitVec.ofNat 2 w))
     else none)
  else if nbits ≤ 16 then (if w < 512 then some (.cmd (BitVec.ofNat 9 w)) else none)
  else if nbits ≤ 24 then (if w < 131072 then some (.slot (BitVec.ofNat 17 w)) else none)
  else none

/-- The operation the decoder reads from a word of the table, numbered as the table numbers it. -/
def decodeTableWord (nbits w : Nat) : Option Instr :=
  match tableWord nbits w with
  | none => none
  | some sw =>
    match decode sw with
    | .ok i => some i
    | .error _ => none

end Sys2Proof
end

