-- ==== Sys2Proof/Machine/Operands.lean ====
section
/-! DEFINITION. The selection words formed from the state and the ports (30_encoding.md R60 to R64): which format the
phase selects, and the word of that format. -/

namespace Sys2Proof.Machine

/-- CMD: start then pin, at every clock step in IDLE (R60). -/
def cmdOf (s : State) : BitVec 9 := cmdWord s.ports.start s.ports.pin

/-- SEQ: `p` = DRIVE_HIGH, `l` = (`DELAY` = 1) (R62). -/
def seqOf (s : State) : BitVec 2 := seqWord (decide (s.phase = .driveHigh)) (decide (s.delay.toNat = 1))

/-- The sample differs from `LASTSTATE` (R63 `t`). -/
def transitionSeen (s : State) : Bool := decide (pinRead s ≠ s.lastState)

/-- SLOT: `t`, `f`, `SLOT`, `COUNTER` (R63). -/
def slotOf (s : State) : BitVec 17 := slotWord (transitionSeen s) (full s) s.slot s.counter

/-- VAL: `n`, `s` (R64). -/
def valOf (s : State) : BitVec 2 := valWord (enoughBits s) (checksumEqual s)

/-- The selection word of the clock step, or none where nothing executes: `rst` wins, then `PHASE` selects the format;
the driven phases and SCAN act at tick steps only (R61, 00_scope.md R10, 60_exceptions.md R129). -/
def selectionWord (s : State) : Option SelWord :=
  if s.ports.rst then some (.rst 1#1)
  else
    match s.phase with
    | .idle => some (.cmd (cmdOf s))
    | .driveLow => if s.ports.tick then some (.seq (seqOf s)) else none
    | .driveHigh => if s.ports.tick then some (.seq (seqOf s)) else none
    | .scan => if s.ports.tick then some (.slot (slotOf s)) else none
    | .validate => some (.val (valOf s))

end Sys2Proof.Machine
end

