-- ==== Sys2Proof/Machine/Loader.lean ====
section
/-! DEFINITION. Putting the machine where a given selection word is the one it forms at its next step (log entry 13).
The block fetches nothing (20_memory.md R53), so this sets the phase, the registers and the ports the word is made of. -/

namespace Sys2Proof.Machine

/-- Quiet port values: nothing asserted. -/
def quietPorts : PortsIn := { rst := false, tick := false, start := false, pin := 0#8, lineIn := false }

/-- The port values of the very next clock step, with no `READ` of the host in the way. -/
def State.withPorts (s : State) (p : PortsIn) : State :=
  { s with script := p :: s.script, host := { s.host with call := none, reading := none } }

/-- 1 as a value of `DELAY`, which every `DELAY_W` holds. -/
def delayOne : BitVec Config.delayWidth := BitVec.ofNatLT 1 (Nat.one_lt_two_pow (Nat.succ_ne_zero _))

/-- A `DELAY` with the given bit `l` = (`DELAY` = 1): the present one where it fits, otherwise 1 or 0, which every
`DELAY_W` holds. -/
def delayFor (d : BitVec Config.delayWidth) (l : Bool) : BitVec Config.delayWidth :=
  if l then delayOne else if d.toNat = 1 then 0#Config.delayWidth else d

/-- A `BITCOUNT` with the given bit "40 or more", the present one where it fits. -/
def bitCountFor (b : BitVec 6) (enough : Bool) : BitVec 6 :=
  if enough then 40#6 else if Config.frameBits ≤ b.toNat then 0#6 else b

/-- A checksum byte with the given bit "checksum equal", the present one where it fits. -/
def checksumFor (m : Memory) (equal : Bool) : Byte :=
  if equal then sum8 m else if Memory.read m 4 = sum8 m then sum8 m + 1#8 else Memory.read m 4

/-- The state whose next step forms the given selection word. -/
def State.selecting (s : State) : SelWord → State
  | .rst w => s.withPorts { quietPorts with rst := w.getLsbD 0 }
  | .cmd w =>
    { s with phase := .idle }.withPorts { quietPorts with start := w.getLsbD 8, pin := w.extractLsb' 0 8 }
  | .seq w =>
    { s with
      phase := if w.getLsbD 1 then .driveHigh else .driveLow
      delay := delayFor s.delay (w.getLsbD 0) }.withPorts { quietPorts with tick := true }
  | .slot w =>
    { s with
      phase := .scan
      slot := w.extractLsb' 8 7
      counter := w.extractLsb' 0 8
      bitCount := bitCountFor s.bitCount (w.getLsbD 15) }.withPorts
        { quietPorts with tick := true, lineIn := s.lastState != w.getLsbD 16 }
  | .val w =>
    { s with
      phase := .validate
      bitCount := bitCountFor s.bitCount (w.getLsbD 1)
      frame := Memory.write s.frame 4 (checksumFor s.frame (w.getLsbD 0)) }.withPorts quietPorts
  | .pseudo pin => { s with host := { s.host with call := some pin, reading := none } }

end Sys2Proof.Machine
end

