-- ==== Sys2Proof/Machine/Step.lean ====
section
/-! DEFINITION. One step of the machine: a host's `READ` call, or one clock step (00_scope.md R10, 30_encoding.md R61). -/

namespace Sys2Proof.Machine

/-- What the block does at a clock step, the ports being presented: the selected operation, or nothing (R61). -/
def blockStep (s : State) : Host.Outcome State Fault Refusal :=
  match selectionWord s with
  | none => .next s
  | some w =>
    match decode w with
    | .ok i => exec i s
    | .error _ => .fault .noOperation

/-- One step: the `READ` call that is due, which takes no clock step; otherwise a rising edge of `clk`. -/
def step (s : State) : Host.Outcome State Fault Refusal :=
  match dueCall s with
  | some pin => exec (.read pin) s
  | none => blockStep (clockEdge s)

/-- The state whose next step selects the operation of a word of the table (log entry 13); the state itself where the
word is none of the table's. -/
def State.withFetchWord (s : State) (nbits w : Nat) : State :=
  match tableWord nbits w with
  | none => s
  | some sw => s.selecting sw

end Sys2Proof.Machine
end

