-- ==== Sys2Proof/Machine/LoopForm.lean ====
section
/-! DEFINITION. The attempt as the spec's loop over the sample stream, and the retry as a function of attempt outcomes:
what the claims compare the machine with (42_pulse_sampling.md R92, 43_classify_accumulate.md R100, R106, R107,
44_validate_commit.md R116, 45_retry_read.md R118). It uses no part of the machine but its constants. -/

namespace Sys2Proof.Machine

/-- How a slot ends: a transition with its count, or a timeout (00_scope.md "Pulse event"). -/
inductive SlotEvent where
  | transition (count : Nat)
  | timeout
deriving DecidableEq, Repr

/-- The inner loop of R92: how a slot ends that awaits a level, `c` equal samples being counted already, with the
samples it leaves unread; none where the stream is too short to tell. -/
def slotEvent (awaited : Level) : Nat → List Level → Option (SlotEvent × List Level)
  | _, [] => none
  | c, x :: rest =>
    if x ≠ awaited then some (.transition c, rest)
    else if c + 1 = Config.timeoutCount then some (.timeout, rest)
    else slotEvent awaited (c + 1) rest

/-- What is done with the count of slot `i` (R100): the bits received so far, first bit first. -/
def handleSlot (i c : Nat) (bits : List Bool) : List Bool :=
  if i < Config.skipSlots then bits
  else if i % 2 = 1 then bits
  else if bits.length = Config.frameBits then bits
  else bits ++ [decide (Config.bitThreshold < c)]

/-- How a scan ends. -/
structure ScanEnd where
  /-- the bits received, first bit first -/
  bits : List Bool
  /-- `SLOT` at the end -/
  slot : Nat
  timedOut : Bool
  /-- the samples left unread -/
  rest : List Level
deriving DecidableEq, Repr

/-- The outer loop of R92: `left` slots from slot `i` on, awaiting a level first. -/
def scanLoop : Nat → Nat → Level → List Bool → List Level → Option ScanEnd
  | 0, i, _, bits, stream => some { bits := bits, slot := i, timedOut := false, rest := stream }
  | left + 1, i, awaited, bits, stream =>
    match slotEvent awaited 0 stream with
    | none => none
    | some (.timeout, rest) => some { bits := bits, slot := i, timedOut := true, rest := rest }
    | some (.transition c, rest) => scanLoop left (i + 1) (!awaited) (handleSlot i c bits) rest

/-- The scan of one attempt (R92, R116). -/
def scanStream (stream : List Level) : Option ScanEnd :=
  scanLoop Config.maxTimings 0 Config.lastStateInit [] stream

/-- Bits as a number, first bit most significant (R107). -/
def numberOfBits : List Bool → Nat
  | [] => 0
  | b :: bs => b.toNat * 2 ^ bs.length + numberOfBits bs

/-- Byte `k` of the frame that a list of received bits makes (R107, 20_memory.md R38, R40). -/
def byteOfBits (bits : List Bool) (k : Nat) : Nat := numberOfBits ((bits.drop (8 * k)).take 8)

/-- The result of an attempt that ends with these bits, from the result registers before it (R116). -/
def resultOfBits (bits : List Bool) (h t : Result) : Bool × Result × Result :=
  if Config.frameBits ≤ bits.length
      ∧ byteOfBits bits 4
        = (byteOfBits bits 0 + byteOfBits bits 1 + byteOfBits bits 2 + byteOfBits bits 3) % 256
  then (true, BitVec.ofNat 16 (byteOfBits bits 0), BitVec.ofNat 16 (byteOfBits bits 2))
  else (false, h, t)

/-- The outcome of one attempt as the host sees it at its `done` step. -/
structure AttemptOutcome where
  ok : Bool
  humidity : Result
  temperature : Result
deriving DecidableEq, Repr

/-- `READ`'s pseudocode (R118) over the outcomes of its attempts, `n` being finished already: what it returns, or none
while it still goes on. -/
def readOutcome : Nat → List AttemptOutcome → Option ReadResult
  | _, [] => none
  | n, o :: os =>
    if o.ok then
      some { success := true, humidity := o.humidity, temperature := o.temperature, attempts := n + 1 }
    else if n + 1 = Config.maxAttempts then
      some { success := false, humidity := o.humidity, temperature := o.temperature, attempts := n + 1 }
    else readOutcome (n + 1) os

end Sys2Proof.Machine
end

