-- ==== Sys2Proof/Safety.lean ====
section
/-! DEFINITION. The terms the claims are stated in: the block's invariant (10_state.md R31), the inputs of a run, what a
run shows. -/

namespace Sys2Proof.Machine

/-- The invariant of the block: R31 (a) to (g), and what makes it inductive: the fresh values of the driven phases (R90,
R88), the parity of `LASTSTATE` (R98), `TIMED_OUT` (R28), `LINE_OUT` (R24), `DONE` (R26), and the bounds of the host's
`READ` (R118). Log entry 20. -/
structure State.Inv (s : State) : Prop where
  /-- the frame store is in canonical form (log entry 3) -/
  frameCanonical : Memory.wf s.frame = true
  /-- R31 (a) -/
  bitCountLe : s.bitCount.toNat ≤ 40
  /-- R31 (b) -/
  slotLe : s.slot.toNat ≤ 85
  /-- R31 (b) -/
  slotLast : s.slot.toNat = 85 → s.phase = .validate ∨ s.phase = .idle
  /-- R31 (c) -/
  counterInScan : s.phase = .scan → s.counter.toNat ≤ 254
  /-- R31 (c) -/
  counterSentinel : s.counter.toNat = 255 → s.timedOut = true
  /-- R31 (d), the byte being filled -/
  partialByte : s.bitCount.toNat < 40 →
    (Memory.read s.frame (s.bitCount.toNat / 8)).toNat < 2 ^ (s.bitCount.toNat % 8)
  /-- R31 (d), the bytes after it -/
  laterBytes : ∀ k, s.bitCount.toNat / 8 < k → Memory.read s.frame k = 0#8
  /-- R31 (e) -/
  bitCountOfSlot : s.bitCount.toNat = min 40 ((s.slot.toNat - 3) / 2)
  /-- R31 (f) -/
  lineDriven : s.lineOe = true ↔ (s.phase = .driveLow ∨ s.phase = .driveHigh)
  /-- R31 (g) -/
  results : (s.lastHumidity = 0xD8F1#16 ∧ s.lastTemperature = 0xD8F1#16)
    ∨ (s.lastHumidity.toNat ≤ 255 ∧ s.lastTemperature.toNat ≤ 255)
  /-- R80, R90: what `ATTEMPT` set still stands in the driven phases -/
  freshWhileDriven : (s.phase = .driveLow ∨ s.phase = .driveHigh) →
    s.slot = 0#7 ∧ s.counter = 0#8 ∧ s.bitCount = 0#6 ∧ s.lastState = true
  /-- R88: `DELAY` is not 0 in a driven phase -/
  delayNotZero : (s.phase = .driveLow ∨ s.phase = .driveHigh) → 1 ≤ s.delay.toNat
  /-- R22: `DELAY` was loaded with `SETTLE_TICKS` -/
  delayLow : s.phase = .driveLow → s.delay.toNat ≤ Config.settleTicks
  /-- R22: `DELAY` was loaded with `RELEASE_TICKS` -/
  delayHigh : s.phase = .driveHigh → s.delay.toNat ≤ Config.releaseTicks
  /-- R14: the values of `DELAY` -/
  delayLe : s.delay.toNat ≤ max Config.settleTicks Config.releaseTicks
  /-- R98 -/
  parityInScan : s.phase = .scan → s.lastState = decide (s.slot.toNat % 2 = 0)
  /-- R28: only the end of a scan sets `TIMED_OUT`, and `ATTEMPT` clears it -/
  timedOutLate : s.timedOut = true → s.phase = .validate ∨ s.phase = .idle
  /-- R24, R87 -/
  lineOut : s.lineOut = decide (s.phase ≠ .driveLow)
  /-- R26 -/
  doneIdle : s.done = true → s.phase = .idle
  /-- R118: fewer than 20 attempts are finished while a `READ` goes on -/
  readCount : ∀ r, s.host.reading = some r → r.attempts < 20
  /-- R118: a `READ` that waits for `done` waits for an attempt that is in progress or has just ended -/
  readAwaits : ∀ r, s.host.reading = some r → r.awaiting = true → s.phase ≠ .idle ∨ s.done = true
  /-- R118: `READ` returns after 1 to 20 attempts -/
  returnedCount : ∀ r, s.host.returned = some r → 1 ≤ r.attempts ∧ r.attempts ≤ 20

/-! ## The inputs of a run -/

/-- No reset among these port values. -/
def NoReset (q : List PortsIn) : Prop := ∀ p ∈ q, p.rst = false

/-- How many of these clock steps are tick steps (00_scope.md R10). -/
def ticks (q : List PortsIn) : Nat := (q.filter (·.tick)).length

/-- The samples of the tick steps among these clock steps (R11). -/
def samples (q : List PortsIn) : List Level := (q.filter (·.tick)).map (·.lineIn)

/-- The last of these clock steps is a tick step. -/
def EndsWithTick (q : List PortsIn) : Prop := ∃ q' p, q = q' ++ [p] ∧ p.tick = true

/-! ## The premises about the pins (70_reset_and_hazards.md R143, R147; log entry 15) -/

/-- What lies outside the block between its ports and the pads (20_memory.md R45, 60_exceptions.md R136): what the host
has set up, and the wires. No port tells the block any of it, so it is no part of State. -/
structure Environment where
  /-- the one-time platform set-up has succeeded -/
  platformReady : Bool
  /-- the pins whose set-up is complete -/
  pinsReady : List PinId
  /-- nothing else drives the wire, changes the pin mode or gives commands -/
  exclusive : Bool
  /-- the levels on the wire of a pin at the tick steps of a stretch of clock steps, in order -/
  levels : PinId → List Level
  /-- the level to which the block drives the wire of a pin now, if it does -/
  driven : PinId → Option Level

/-- The named premise of R143 and decision D15: platform set-up has succeeded and `pin` names a set-up pin. -/
def SetUpPremise (e : Environment) (pin : PinId) : Prop := e.platformReady = true ∧ pin ∈ e.pinsReady

/-- The premise of R147: the wire and the command ports have one master. -/
def ExclusivePremise (e : Environment) : Prop := e.exclusive = true

/-- `line_in` at the tick steps carries the levels on the wire of `pin`. Without the premises the spec does not define
what it carries (R143, R147), so this says nothing then. -/
def Environment.Feeds (e : Environment) (pin : PinId) (q : List PortsIn) : Prop :=
  SetUpPremise e pin → ExclusivePremise e → samples q = e.levels pin

/-- The level at which the output ports have the wire of a pin driven, if they do (10_state.md R23, R24). -/
def padDrive (o : PortsOut) (pin : PinId) : Option Level :=
  if o.lineOe = true ∧ o.pinSel = pin then some o.lineOut else none

/-- What reaches the wires is what the output ports say. Without the premises the spec does not define it (R143, R147),
so this says nothing then. -/
def Environment.FollowsPorts (e : Environment) (o : PortsOut) : Prop :=
  ∀ pin, SetUpPremise e pin → ExclusivePremise e → e.driven pin = padDrive o pin

/-! ## What a run shows -/

/-- `k` steps from `s` reach `t`. -/
def Reaches (k : Nat) (s t : State) : Prop := Sys2Proof.core.run k s = .next t

/-- The registers of the block are the same (10_state.md R14). -/
def SameRegisters (s t : State) : Prop :=
  t = { s with ports := t.ports, script := t.script, edge := t.edge, host := t.host }

/-- The outcome a state shows, if its `done` pulse is up. -/
def outcomeShown (s : State) : List AttemptOutcome :=
  if s.done then [{ ok := s.ok, humidity := s.lastHumidity, temperature := s.lastTemperature }] else []

/-- The outcomes shown by the first `k` states of a run. -/
def outcomesShown : Nat → State → List AttemptOutcome
  | 0, _ => []
  | k + 1, s =>
    outcomeShown s ++
      (match step s with
       | .next t => outcomesShown k t
       | _ => [])

end Sys2Proof.Machine
end

