-- ==== Sys2Proof/Certificates/Slice0/Obligations.lean ====
section
/-! DEFINITION. The statements about the model. Numbers are written out, so that a wrong constant of Config shows. In a
statement about a clock step, `clockEdge s` is the state with the ports of that step presented (log entry 1) and
`dueCall s = none` says that the step is a clock step, not the host's call of `READ` (log entry 9). -/

open Sys2Proof Sys2Proof.Machine

/-! ## Reset and host commands -/

/-- R32: the state after reset holds the reset value of every state element. -/
def Obligations.ResetStateHoldsTheResetValues : Prop :=
  State.reset.lastHumidity.toInt = -9999 ∧ State.reset.lastTemperature.toInt = -9999 ∧ State.reset.phase = .idle
    ∧ State.reset.ok = false ∧ State.reset.done = false ∧ State.reset.lineOe = false ∧ State.reset.lineOut = true
    ∧ (∀ k, Memory.read State.reset.frame k = 0#8) ∧ State.reset.bitCount = 0#6 ∧ State.reset.slot = 0#7
    ∧ State.reset.counter = 0#8 ∧ State.reset.delay.toNat = 0 ∧ State.reset.pin = 0#8 ∧ State.reset.timedOut = false
    ∧ State.reset.lastState = true

/-- R82: `RESET` gives every register its reset value from any state, leaves the input side alone, and a clock step with
`rst` = 1 runs it in any phase, whatever `start` and `tick` are. -/
def Obligations.ResetFromAnyState : Prop :=
  (∀ s : State, ∃ t, exec .reset s = .next t ∧ t.lastHumidity.toInt = -9999 ∧ t.lastTemperature.toInt = -9999
    ∧ t.phase = .idle ∧ t.ok = false ∧ t.done = false ∧ t.timedOut = false ∧ t.lineOe = false ∧ t.lineOut = true
    ∧ (∀ k, Memory.read t.frame k = 0#8) ∧ t.bitCount = 0#6 ∧ t.slot = 0#7 ∧ t.counter = 0#8 ∧ t.delay.toNat = 0
    ∧ t.pin = 0#8 ∧ t.lastState = true ∧ t.ports = s.ports ∧ t.script = s.script ∧ t.edge = s.edge)
  ∧ (∀ s : State, dueCall s = none → (clockEdge s).ports.rst = true → step s = exec .reset (clockEdge s))

/-- The model's choice (log entry 11): a reset ends the host's `READ`. -/
def Obligations.ResetEndsTheHostsRead : Prop :=
  ∀ s t : State, dueCall s = none → (clockEdge s).ports.rst = true → step s = .next t → t.host = HostState.quiet

/-- R80: the effect of `ATTEMPT pin` on every register, and when a clock step runs it. -/
def Obligations.AttemptStartsOneRead : Prop :=
  (∀ (pin : PinId) (s : State), ∃ t, exec (.attempt pin) s = .next t
    ∧ (∀ k, Memory.read t.frame k = 0#8) ∧ t.delay.toNat = Config.settleTicks
    ∧ t = { s with
        pin := pin, frame := t.frame, bitCount := 0#6, slot := 0#7, counter := 0#8, lastState := true,
        timedOut := false, ok := false, done := false, lineOe := true, lineOut := false,
        delay := t.delay, phase := .driveLow })
  ∧ (∀ s : State, dueCall s = none → (clockEdge s).ports.rst = false → s.phase = .idle →
      (clockEdge s).ports.start = true → step s = exec (.attempt (clockEdge s).ports.pin) (clockEdge s))

/-- R81: `NOP` only ends the `done` pulse; a clock step in IDLE with `start` = 0 runs it. -/
def Obligations.NopOnlyEndsTheDonePulse : Prop :=
  (∀ s : State, exec .nop s = .next { s with done := false })
  ∧ (∀ s : State, dueCall s = none → (clockEdge s).ports.rst = false → s.phase = .idle →
      (clockEdge s).ports.start = false → step s = exec .nop (clockEdge s))

/-- R29: after `ATTEMPT` nothing of the per-attempt state before it is left: states that agree on the result registers
and on what is not the block's go to the same state. -/
def Obligations.AttemptForgetsThePast : Prop :=
  ∀ (pin : PinId) (s s' : State), s'.lastHumidity = s.lastHumidity → s'.lastTemperature = s.lastTemperature →
    s'.ports = s.ports → s'.script = s.script → s'.edge = s.edge → s'.host = s.host →
    exec (.attempt pin) s' = exec (.attempt pin) s

/-! ## The wake-up handshake -/

/-- R88: `WAIT` takes one from `DELAY` and changes nothing else; a tick step of a driven phase with `DELAY` not 1 runs
it; a clock step there that is no tick step runs nothing; and `DELAY` is not 0 in a driven phase. -/
def Obligations.WaitLetsOneTickGoBy : Prop :=
  (∀ s : State, s.delay.toNat ≠ 0 →
    ∃ t, exec .wait s = .next t ∧ t.delay.toNat = s.delay.toNat - 1 ∧ t = { s with delay := t.delay })
  ∧ (∀ s : State, dueCall s = none → (clockEdge s).ports.rst = false → (s.phase = .driveLow ∨ s.phase = .driveHigh) →
      (clockEdge s).ports.tick = true → s.delay.toNat ≠ 1 → step s = exec .wait (clockEdge s))
  ∧ (∀ s : State, dueCall s = none → (clockEdge s).ports.rst = false → (s.phase = .driveLow ∨ s.phase = .driveHigh) →
      (clockEdge s).ports.tick = false → step s = .next (clockEdge s))
  ∧ (∀ s : State, s.Inv → (s.phase = .driveLow ∨ s.phase = .driveHigh) → s.delay.toNat ≠ 0)

/-- The model's choice (log entry 5) for `DELAY` = 0, which R88 says cannot occur: the register of `DELAY_W` bits
wraps. -/
def Obligations.WaitAtZeroWraps : Prop :=
  ∀ s : State, s.delay.toNat = 0 →
    ∃ t, exec .wait s = .next t ∧ t.delay.toNat = 2 ^ Config.delayWidth - 1 ∧ t = { s with delay := t.delay }

/-- R7: `DELAY_W` is the smallest width that holds both durations, each at least 1. -/
def Obligations.DelayWidthIsTheSmallest : Prop :=
  1 ≤ Config.settleTicks ∧ 1 ≤ Config.releaseTicks
    ∧ ∀ w : Nat, max Config.settleTicks Config.releaseTicks < 2 ^ w ↔ Config.delayWidth ≤ w

/-- R89: `RAISE`, and when a clock step runs it. -/
def Obligations.RaiseDrivesTheWireHigh : Prop :=
  (∀ s : State, ∃ t, exec .raise s = .next t ∧ t.delay.toNat = Config.releaseTicks
    ∧ t = { s with lineOut := true, delay := t.delay, phase := .driveHigh })
  ∧ (∀ s : State, dueCall s = none → (clockEdge s).ports.rst = false → s.phase = .driveLow →
      (clockEdge s).ports.tick = true → s.delay.toNat = 1 → step s = exec .raise (clockEdge s))

/-- R90: `RELEASE`, when a clock step runs it, and what the registers then hold. -/
def Obligations.ReleaseHandsTheWireOver : Prop :=
  (∀ s : State, exec .release s = .next { s with lineOe := false, phase := .scan })
  ∧ (∀ s : State, dueCall s = none → (clockEdge s).ports.rst = false → s.phase = .driveHigh →
      (clockEdge s).ports.tick = true → s.delay.toNat = 1 → step s = exec .release (clockEdge s))
  ∧ (∀ s : State, s.Inv → s.phase = .driveHigh →
      s.lineOut = true ∧ s.slot = 0#7 ∧ s.counter = 0#8 ∧ s.lastState = true ∧ s.bitCount = 0#6
        ∧ ∀ k, Memory.read s.frame k = 0#8)

/-- R86, R87: from the state `ATTEMPT` leaves, while no reset comes: low drive for `SETTLE_TICKS` tick steps, high drive
for `RELEASE_TICKS` more, then the scan, whatever clock steps lie between the tick steps. -/
def Obligations.HandshakeDrivesLowThenHigh : Prop :=
  ∀ (s : State) (q rest : List PortsIn), s.Inv → s.host.call = none → s.phase = .driveLow →
    s.delay.toNat = Config.settleTicks → s.script = q ++ rest → NoReset q →
    (ticks q < Config.settleTicks →
      ∃ t, Reaches q.length s t ∧ t.phase = .driveLow ∧ t.lineOe = true ∧ t.lineOut = false)
    ∧ (Config.settleTicks ≤ ticks q → ticks q < Config.settleTicks + Config.releaseTicks →
      ∃ t, Reaches q.length s t ∧ t.phase = .driveHigh ∧ t.lineOe = true ∧ t.lineOut = true)
    ∧ (ticks q = Config.settleTicks + Config.releaseTicks → EndsWithTick q →
      ∃ t, Reaches q.length s t ∧ t.phase = .scan ∧ t.lineOe = false ∧ t.script = rest
        ∧ t.slot = 0#7 ∧ t.counter = 0#8 ∧ t.bitCount = 0#6 ∧ t.lastState = true)

/-! ## Sampling and classification -/

/-- R93: `COUNT`, and when a clock step runs it. -/
def Obligations.CountRecordsOneSample : Prop :=
  (∀ (i : BitVec 7) (c : BitVec 8) (s : State), exec (.count i c) s = .next { s with counter := s.counter + 1#8 })
  ∧ (∀ s : State, dueCall s = none → (clockEdge s).ports.rst = false → s.phase = .scan →
      (clockEdge s).ports.tick = true → (clockEdge s).ports.lineIn = s.lastState → s.slot.toNat ≤ 84 →
      s.counter.toNat ≤ 253 →
      step s = exec (.count s.slot s.counter) (clockEdge s) ∧ (s.counter + 1#8).toNat = s.counter.toNat + 1)

/-- R94: `TMO`, and when a clock step runs it. -/
def Obligations.TimeoutEndsTheScan : Prop :=
  (∀ (i : BitVec 7) (s : State),
    exec (.tmo i) s = .next { s with counter := 255#8, timedOut := true, phase := .validate })
  ∧ (∀ s : State, dueCall s = none → (clockEdge s).ports.rst = false → s.phase = .scan →
      (clockEdge s).ports.tick = true → (clockEdge s).ports.lineIn = s.lastState → s.slot.toNat ≤ 84 →
      s.counter.toNat = 254 → step s = exec (.tmo s.slot) (clockEdge s))

/-- R101, R102, R105 with the transition step R95 and the end of the scan R96: these three do the transition step and
nothing else. -/
def Obligations.SkippedTransitionsOnlyMoveOn : Prop :=
  ∀ (i : BitVec 7) (c : BitVec 8) (s : State) (op : Instr), (op = .skiph i c ∨ op = .skipm i c ∨ op = .drop i c) →
    exec op s = .next
      { s with
        lastState := s.ports.lineIn, counter := 0#8, slot := s.slot + 1#7,
        phase := if s.slot.toNat = 84 then .validate else s.phase }

/-- R103, R104 with the transition step R95: the bit goes into byte `BITCOUNT div 8` from the right, every other byte
stays, `BITCOUNT` advances, and the transition step follows. -/
def Obligations.ShiftAppendsTheBit : Prop :=
  ∀ (i : BitVec 7) (c : BitVec 8) (s : State) (op : Instr) (b : Bool),
    (op = .shift0 i c ∧ b = false ∨ op = .shift1 i c ∧ b = true) → s.bitCount.toNat < 40 →
    ∃ t, exec op s = .next t
      ∧ (∀ k, Memory.read t.frame k =
          if k = bitAddress s then BitVec.ofNat 8 (2 * (Memory.read s.frame k).toNat + b.toNat)
          else Memory.read s.frame k)
      ∧ bitAddress s = s.bitCount.toNat / 8
      ∧ t = { s with
          frame := t.frame, bitCount := s.bitCount + 1#6, lastState := s.ports.lineIn, counter := 0#8,
          slot := s.slot + 1#7, phase := if s.slot.toNat = 84 then .validate else s.phase }

/-- The model's stop (log entry 6) where R37 and R43 say there is no address: an append with 40 or more bits in. -/
def Obligations.ShiftBeyondTheFrameStops : Prop :=
  ∀ (i : BitVec 7) (c : BitVec 8) (s : State) (op : Instr), (op = .shift0 i c ∨ op = .shift1 i c) →
    40 ≤ s.bitCount.toNat → exec op s = .fault (.noFrameByte (s.bitCount.toNat / 8))

/-- R100: at a tick step of the scan at which the sample differs, the role of the slot decides the operation, in the
order handshake, marker, full, threshold. -/
def Obligations.RoleOfTheSlotDecides : Prop :=
  ∀ s : State, dueCall s = none → (clockEdge s).ports.rst = false → s.phase = .scan →
    (clockEdge s).ports.tick = true → (clockEdge s).ports.lineIn ≠ s.lastState → s.slot.toNat ≤ 84 →
    s.counter.toNat ≤ 254 →
    step s = exec
      (if s.slot.toNat < 4 then .skiph s.slot s.counter
       else if s.slot.toNat % 2 = 1 then .skipm s.slot s.counter
       else if s.bitCount.toNat = 40 then .drop s.slot s.counter
       else if 16 < s.counter.toNat then .shift1 s.slot s.counter
       else .shift0 s.slot s.counter) (clockEdge s)

/-- R106: the bit a data slot contributes is 1 exactly when its count is greater than 16, whatever else the state
holds. -/
def Obligations.CountDecidesTheBit : Prop :=
  ∀ s : State, dueCall s = none → (clockEdge s).ports.rst = false → s.phase = .scan →
    (clockEdge s).ports.tick = true → (clockEdge s).ports.lineIn ≠ s.lastState → 4 ≤ s.slot.toNat →
    s.slot.toNat ≤ 84 → s.slot.toNat % 2 = 0 → s.bitCount.toNat < 40 → s.counter.toNat ≤ 254 →
    ∃ t, step s = .next t ∧ t.bitCount = s.bitCount + 1#6
      ∧ ∀ k, Memory.read t.frame k =
          if k = s.bitCount.toNat / 8 then
            BitVec.ofNat 8 (2 * (Memory.read s.frame k).toNat + if 16 < s.counter.toNat then 1 else 0)
          else Memory.read s.frame k

/-- R63 says of a SLOT word with `i` 85 or more or `c` = 255 that it selects nothing; the model's stop there (log
entry 7). -/
def Obligations.UnselectableWordStops : Prop :=
  ∀ s : State, dueCall s = none → (clockEdge s).ports.rst = false → s.phase = .scan →
    (clockEdge s).ports.tick = true → (85 ≤ s.slot.toNat ∨ s.counter.toNat = 255) → step s = .fault .noOperation

/-- R67, R97: a slot that begins and is held for `n` samples. Up to 254 samples and then a differing one it ends as a
transition, and a data slot has then received the bit "more than 16"; with 255 samples it times out, with no bit. -/
def Obligations.RunLengthBecomesTheBit : Prop :=
  ∀ (s : State) (n : Nat) (q rest : List PortsIn) (p : PortsIn), s.Inv → s.host.call = none → s.phase = .scan →
    s.counter = 0#8 → q.length = n → (∀ x ∈ q, x.rst = false ∧ x.tick = true ∧ x.lineIn = s.lastState) →
    (n ≤ 254 → p.rst = false → p.tick = true → p.lineIn ≠ s.lastState → s.script = q ++ p :: rest →
      ∃ t, Reaches (n + 1) s t ∧ t.slot = s.slot + 1#7 ∧ t.counter = 0#8 ∧ t.lastState = p.lineIn
        ∧ (4 ≤ s.slot.toNat → s.slot.toNat % 2 = 0 → s.bitCount.toNat < 40 →
            t.bitCount = s.bitCount + 1#6 ∧ (Memory.read t.frame (s.bitCount.toNat / 8)).toNat % 2
              = if 16 < n then 1 else 0))
    ∧ (n = 255 → s.script = q ++ rest →
      ∃ t, Reaches n s t ∧ t.phase = .validate ∧ t.timedOut = true ∧ t.counter = 255#8 ∧ t.slot = s.slot
        ∧ t.bitCount = s.bitCount ∧ ∀ k, Memory.read t.frame k = Memory.read s.frame k)

/-! ## Validation -/

/-- R112: `COMMIT`, and when a clock step runs it. -/
def Obligations.CommitWritesBothResults : Prop :=
  (∀ s : State, ∃ t, exec .commit s = .next t
    ∧ t.lastHumidity.toNat = (Memory.read s.frame 0).toNat
    ∧ t.lastTemperature.toNat = (Memory.read s.frame 2).toNat
    ∧ t = { s with
        lastHumidity := t.lastHumidity, lastTemperature := t.lastTemperature, ok := true, done := true,
        phase := .idle })
  ∧ (∀ s : State, dueCall s = none → (clockEdge s).ports.rst = false → s.phase = .validate →
      40 ≤ s.bitCount.toNat →
      (Memory.read s.frame 4).toNat = ((Memory.read s.frame 0).toNat + (Memory.read s.frame 1).toNat
        + (Memory.read s.frame 2).toNat + (Memory.read s.frame 3).toNat) % 256 →
      step s = exec .commit (clockEdge s))

/-- R113: `REJECT`, in each of its three forms, and when a clock step runs it. -/
def Obligations.RejectLeavesTheResults : Prop :=
  (∀ (n e : Bool) (s : State), exec (.reject n e) s = .next { s with ok := false, done := true, phase := .idle })
  ∧ (∀ s : State, dueCall s = none → (clockEdge s).ports.rst = false → s.phase = .validate →
      (s.bitCount.toNat < 40
        ∨ (Memory.read s.frame 4).toNat ≠ ((Memory.read s.frame 0).toNat + (Memory.read s.frame 1).toNat
          + (Memory.read s.frame 2).toNat + (Memory.read s.frame 3).toNat) % 256) →
      ∃ n e, Instr.wellFormed (.reject n e) = true ∧ step s = exec (.reject n e) (clockEdge s))

/-- R110, R114, R115: the clock step in VALIDATE, whatever `tick` is: success exactly when 40 bits are in and the
checksum is right, and then the two integer bytes; otherwise the old results. -/
def Obligations.ValidateStepDecidesTheAttempt : Prop :=
  ∀ s : State, dueCall s = none → (clockEdge s).ports.rst = false → s.phase = .validate →
    ∃ t, step s = .next t ∧ t.phase = .idle ∧ t.done = true
      ∧ (t.ok = true ↔ 40 ≤ s.bitCount.toNat
          ∧ (Memory.read s.frame 4).toNat = ((Memory.read s.frame 0).toNat + (Memory.read s.frame 1).toNat
            + (Memory.read s.frame 2).toNat + (Memory.read s.frame 3).toNat) % 256)
      ∧ (t.ok = true → t.lastHumidity.toNat = (Memory.read s.frame 0).toNat
          ∧ t.lastTemperature.toNat = (Memory.read s.frame 2).toNat)
      ∧ (t.ok = false → t.lastHumidity = s.lastHumidity ∧ t.lastTemperature = s.lastTemperature)
      ∧ t.frame = s.frame ∧ t.bitCount = s.bitCount

/-! ## The host's READ -/

/-- R118: `READ pin` begins with n = 0, waiting for `busy` = 0, and the block does not move. -/
def Obligations.ReadBeginsTheRetry : Prop :=
  (∀ (pin : PinId) (s : State), ∃ t, exec (.read pin) s = .next t
    ∧ t.host.reading = some { pin := pin, attempts := 0, awaiting := false } ∧ t.host.returned = none
    ∧ t.host.call = none ∧ t = { s with host := t.host })
  ∧ (∀ (pin : PinId) (s : State), s.host.reading = none → s.host.call = some pin → step s = exec (.read pin) s)

/-- R118, R119: the pseudocode of `READ`, clock step by clock step. In this order: it waits while the block is busy; it
gives `ATTEMPT pin` at the first step with `busy` = 0; it waits for `done`; at the `done` step it returns a success;
it returns the failure of the twentieth attempt; otherwise it gives the next `ATTEMPT` at that very step. -/
def Obligations.ReadFollowsItsPseudocode : Prop :=
  ∀ (s : State) (r : ReadProgress), s.host.reading = some r → (clockEdge s).ports.rst = false →
    (r.awaiting = false → s.phase ≠ .idle →
      (clockEdge s).ports.start = false ∧ (clockEdge s).host = s.host)
    ∧ (r.awaiting = false → s.phase = .idle →
      step s = exec (.attempt r.pin) (clockEdge s)
        ∧ (clockEdge s).host.reading = some { r with awaiting := true })
    ∧ (r.awaiting = true → s.done = false →
      (clockEdge s).ports.start = false ∧ (clockEdge s).host = s.host)
    ∧ (r.awaiting = true → s.done = true → s.ok = true →
      (clockEdge s).host.reading = none
        ∧ (clockEdge s).host.returned = some
            { success := true, humidity := s.lastHumidity, temperature := s.lastTemperature,
              attempts := r.attempts + 1 })
    ∧ (r.awaiting = true → s.done = true → s.ok = false → r.attempts = 19 →
      (clockEdge s).host.reading = none
        ∧ (clockEdge s).host.returned = some
            { success := false, humidity := s.lastHumidity, temperature := s.lastTemperature, attempts := 20 })
    ∧ (r.awaiting = true → s.done = true → s.ok = false → r.attempts ≠ 19 → s.phase = .idle →
      step s = exec (.attempt r.pin) (clockEdge s)
        ∧ (clockEdge s).host.reading = some { pin := r.pin, attempts := r.attempts + 1, awaiting := true })

/-- R121: over a whole run without reset, a `READ` whose first attempt has been given has returned exactly what R118's
pseudocode makes of the attempt outcomes shown so far: the first success, ignoring later attempts, or the failure of
the twentieth; until then it goes on and has counted them. -/
def Obligations.ReadReturnsTheFirstSuccess : Prop :=
  ∀ (s t : State) (r : ReadProgress) (q rest : List PortsIn), s.Inv → s.host.call = none →
    s.host.reading = some r → r.awaiting = true → r.attempts = 0 → s.script = q ++ rest → NoReset q →
    Reaches q.length s t →
    match readOutcome 0 (outcomesShown q.length s) with
    | some result => t.host.reading = none ∧ t.host.returned = some result
    | none => t.host.reading = some { r with attempts := (outcomesShown q.length s).length }

/-! ## Selection words, the operation table -/

/-- One step runs the operation that the selection word decodes to, the ports of the clock step being presented; a
`READ` call that is due is run without a clock step (R61; log entries 1 and 9). -/
def Obligations.StepRunsTheSelectedOperation : Prop :=
  (∀ (s : State) (w : SelWord) (i : Instr), dueCall s = none → selectionWord (clockEdge s) = some w →
    decode w = .ok i → step s = exec i (clockEdge s))
  ∧ (∀ (s : State) (pin : PinId), dueCall s = some pin → step s = exec (.read pin) s)

/-- R10, R61: with no reset, a clock step that is no tick step executes nothing in DRIVE_LOW, DRIVE_HIGH and SCAN: every
register keeps its value. -/
def Obligations.NothingHappensBetweenTicks : Prop :=
  ∀ s : State, dueCall s = none → (clockEdge s).ports.rst = false → (clockEdge s).ports.tick = false →
    (s.phase = .driveLow ∨ s.phase = .driveHigh ∨ s.phase = .scan) →
    ∃ t, step s = .next t ∧ SameRegisters s t ∧ t.script = s.script.tail

/-- R60, R62, R64: the words of the formats CMD, SEQ and VAL, the clock steps at which each is formed, and what each
selects. -/
def Obligations.CommandHandshakeAndValidateWords : Prop :=
  (∀ pin : PinId, decode (.cmd (cmdWord true pin)) = .ok (.attempt pin)
    ∧ decode (.cmd (cmdWord false pin)) = .ok .nop)
  ∧ (∀ p : Bool, decode (.seq (seqWord p false)) = .ok .wait)
  ∧ decode (.seq (seqWord false true)) = .ok .raise ∧ decode (.seq (seqWord true true)) = .ok .release
  ∧ decode (.val (valWord true true)) = .ok .commit
  ∧ (∀ n e : Bool, (n && e) = false → decode (.val (valWord n e)) = .ok (.reject n e))
  ∧ (∀ s : State, cmdOf s = cmdWord s.ports.start s.ports.pin
    ∧ seqOf s = seqWord (decide (s.phase = .driveHigh)) (decide (s.delay.toNat = 1))
    ∧ valOf s = valWord (decide (40 ≤ s.bitCount.toNat))
        (decide ((Memory.read s.frame 4).toNat = ((Memory.read s.frame 0).toNat + (Memory.read s.frame 1).toNat
          + (Memory.read s.frame 2).toNat + (Memory.read s.frame 3).toNat) % 256)))
  ∧ (∀ s : State, s.ports.rst = false →
    (s.phase = .idle → selectionWord s = some (.cmd (cmdOf s)))
    ∧ (s.phase = .validate → selectionWord s = some (.val (valOf s)))
    ∧ (s.phase = .driveLow ∨ s.phase = .driveHigh →
        selectionWord s = if s.ports.tick then some (.seq (seqOf s)) else none)
    ∧ (s.phase = .scan → selectionWord s = if s.ports.tick then some (.slot (slotOf s)) else none))

/-- R63: the SLOT word is made of the four fields and is formed at the tick steps of SCAN; the ranges of its fields
there; and the seven rows of the selection; a word with `i` 85 or more or `c` = 255 selects nothing. -/
def Obligations.SlotWordsSelectOneOfSeven : Prop :=
  (∀ s : State, slotOf s = slotWord (decide (s.ports.lineIn ≠ s.lastState)) (decide (s.bitCount.toNat = 40))
    s.slot s.counter)
  ∧ (∀ s : State, s.ports.rst = false → s.phase = .scan → s.ports.tick = true →
      selectionWord s = some (.slot (slotOf s)))
  ∧ (∀ s : State, s.Inv → s.phase = .scan →
      s.slot.toNat ≤ 84 ∧ s.counter.toNat ≤ 254 ∧ (s.bitCount.toNat = 40 ↔ 83 ≤ s.slot.toNat))
  ∧ ∀ (f : Bool) (i : BitVec 7) (c : BitVec 8),
    (i.toNat ≤ 84 → c.toNat ≤ 253 → decode (.slot (slotWord false f i c)) = .ok (.count i c))
    ∧ (i.toNat ≤ 84 → c.toNat = 254 → decode (.slot (slotWord false f i c)) = .ok (.tmo i))
    ∧ (i.toNat ≤ 3 → c.toNat ≤ 254 → decode (.slot (slotWord true f i c)) = .ok (.skiph i c))
    ∧ (5 ≤ i.toNat → i.toNat ≤ 83 → i.toNat % 2 = 1 → c.toNat ≤ 254 →
        decode (.slot (slotWord true f i c)) = .ok (.skipm i c))
    ∧ (4 ≤ i.toNat → i.toNat ≤ 84 → i.toNat % 2 = 0 → c.toNat ≤ 16 →
        decode (.slot (slotWord true false i c)) = .ok (.shift0 i c))
    ∧ (4 ≤ i.toNat → i.toNat ≤ 84 → i.toNat % 2 = 0 → 17 ≤ c.toNat → c.toNat ≤ 254 →
        decode (.slot (slotWord true false i c)) = .ok (.shift1 i c))
    ∧ (4 ≤ i.toNat → i.toNat ≤ 84 → i.toNat % 2 = 0 → c.toNat ≤ 254 →
        decode (.slot (slotWord true true i c)) = .ok (.drop i c))
    ∧ ((85 ≤ i.toNat ∨ c.toNat = 255) → ∀ (t : Bool) (op : Instr), decode (.slot (slotWord t f i c)) ≠ .ok op)

/-- R78: for every selection word, the rows of the operation table that the word selects are the row of the operation it
decodes to, and no row where it decodes to none: the rows are exclusive and the decoder reads the table. -/
def Obligations.TableSelectsTheDecodedRow : Prop :=
  ∀ w : SelWord,
    rowsSelecting w = match decode w with
      | .ok i => [i.mnemonic]
      | .error _ => []

/-- Decoding the encoding of a well-formed operation gives it back, with every field at every value its row admits. -/
def Obligations.DecodeOfEncodeIsTheOperation : Prop :=
  ∀ i : Instr, i.wellFormed = true → decode (encode i) = .ok i

/-- The decoder gives well-formed operations only. -/
def Obligations.DecodedOperationsAreWellFormed : Prop :=
  ∀ (w : SelWord) (i : Instr), decode w = .ok i → i.wellFormed = true

/-- Words of 95_test_vectors.md sections 2.2 to 2.4 (T1 to T3, T5, T7, T8, T11, T12d, T13, T14, T23, T25, T27, T30, T31),
written in bits from the rows' patterns. -/
def Obligations.WordsOfTheVectorsDecode : Prop :=
  decode (.rst 0b1#1) = .ok .reset
    ∧ decode (.cmd 0b010101011#9) = .ok .nop
    ∧ decode (.cmd 0b100000111#9) = .ok (.attempt 7#8)
    ∧ decode (.seq 0b00#2) = .ok .wait
    ∧ decode (.seq 0b01#2) = .ok .raise
    ∧ decode (.seq 0b11#2) = .ok .release
    ∧ decode (.slot 0b00000010000010000#17) = .ok (.count 4#7 16#8)
    ∧ decode (.slot 0b01101010011111110#17) = .ok (.tmo 84#7)
    ∧ decode (.slot 0b10000010000010000#17) = .ok (.shift0 4#7 16#8)
    ∧ decode (.slot 0b10000010000010001#17) = .ok (.shift1 4#7 17#8)
    ∧ decode (.slot 0b10000000100100111#17) = .ok (.skiph 1#7 39#8)
    ∧ decode (.slot 0b10000010100010011#17) = .ok (.skipm 5#7 19#8)
    ∧ decode (.slot 0b11101010000001001#17) = .ok (.drop 84#7 9#8)
    ∧ decode (.val 0b11#2) = .ok .commit
    ∧ decode (.val 0b10#2) = .ok (.reject true false)

/-- The very next step runs the operation of a word of the table put in place (log entry 13), from any state. -/
def Obligations.FetchWordIsTheNextOperation : Prop :=
  ∀ (s : State) (nbits w : Nat) (i : Instr), decodeTableWord nbits w = some i →
    (nbits = 0 → step (s.withFetchWord nbits w) = exec i (s.withFetchWord nbits w))
    ∧ (nbits ≠ 0 → step (s.withFetchWord nbits w) = exec i (clockEdge (s.withFetchWord nbits w)))

/-! ## Rules about the whole machine -/

/-- R17: the only transitions between the phases, and when each is taken, at every clock step that answers a next
state. -/
def Obligations.OnlyThesePhaseTransitions : Prop :=
  ∀ s t : State, dueCall s = none → step s = .next t →
    ((clockEdge s).ports.rst = true → t.phase = .idle)
    ∧ ((clockEdge s).ports.rst = false →
      (s.phase = .idle → t.phase = if (clockEdge s).ports.start then .driveLow else .idle)
      ∧ (s.phase = .driveLow →
          t.phase = if (clockEdge s).ports.tick = true ∧ s.delay.toNat = 1 then .driveHigh else .driveLow)
      ∧ (s.phase = .driveHigh →
          t.phase = if (clockEdge s).ports.tick = true ∧ s.delay.toNat = 1 then .scan else .driveHigh)
      ∧ (s.phase = .scan →
          t.phase =
            if (clockEdge s).ports.tick = true
                ∧ ((clockEdge s).ports.lineIn = s.lastState ∧ s.counter.toNat = 254
                  ∨ (clockEdge s).ports.lineIn ≠ s.lastState ∧ s.slot.toNat = 84)
            then .validate else .scan)
      ∧ (s.phase = .validate → t.phase = .idle))

/-- R15: the frame store is written only by `ATTEMPT`, `SHIFT0`, `SHIFT1` and reset. -/
def Obligations.FrameWrittenOnlyByItsWriters : Prop :=
  ∀ (i : Instr) (s t : State), exec i s = .next t → i ≠ .reset → (∀ p, i ≠ .attempt p) → (∀ a c, i ≠ .shift0 a c) →
    (∀ a c, i ≠ .shift1 a c) → t.frame = s.frame ∧ ∀ k, Memory.read t.frame k = Memory.read s.frame k

/-- R16: the result registers are written only by `COMMIT` and by reset. -/
def Obligations.ResultsWrittenOnlyByCommitAndReset : Prop :=
  ∀ (i : Instr) (s t : State), exec i s = .next t → i ≠ .reset → i ≠ .commit →
    t.lastHumidity = s.lastHumidity ∧ t.lastTemperature = s.lastTemperature

/-- R24: who writes `LINE_OE` and `LINE_OUT`, and what. -/
def Obligations.LineWrittenOnlyByTheHandshake : Prop :=
  ∀ (i : Instr) (s t : State), exec i s = .next t → i ≠ .reset →
    ((∃ p, i = .attempt p) → t.lineOe = true ∧ t.lineOut = false)
    ∧ (i = .raise → t.lineOe = s.lineOe ∧ t.lineOut = true)
    ∧ (i = .release → t.lineOe = false ∧ t.lineOut = s.lineOut)
    ∧ ((∀ p, i ≠ .attempt p) → i ≠ .raise → i ≠ .release → t.lineOe = s.lineOe ∧ t.lineOut = s.lineOut)

/-- R18 to R23, R25, R26, R28: the writers of the remaining registers; no operation but those named changes one. -/
def Obligations.OtherRegistersWrittenOnlyByTheirWriters : Prop :=
  ∀ (i : Instr) (s t : State), exec i s = .next t → i ≠ .reset → (∀ p, i ≠ .attempt p) →
    t.pin = s.pin
    ∧ (i ≠ .wait → i ≠ .raise → t.delay = s.delay)
    ∧ ((∀ a c, i ≠ .skiph a c) → (∀ a c, i ≠ .skipm a c) → (∀ a c, i ≠ .shift0 a c) → (∀ a c, i ≠ .shift1 a c) →
        (∀ a c, i ≠ .drop a c) →
        t.slot = s.slot ∧ t.lastState = s.lastState
          ∧ ((∀ a c, i ≠ .count a c) → (∀ a, i ≠ .tmo a) → t.counter = s.counter))
    ∧ ((∀ a c, i ≠ .shift0 a c) → (∀ a c, i ≠ .shift1 a c) → t.bitCount = s.bitCount)
    ∧ (i ≠ .commit → (∀ n e, i ≠ .reject n e) → t.ok = s.ok ∧ (i ≠ .nop → t.done = s.done))
    ∧ ((∀ a, i ≠ .tmo a) → t.timedOut = s.timedOut)
    ∧ t.ports = s.ports ∧ t.script = s.script ∧ t.edge = s.edge ∧ ((∀ p, i ≠ .read p) → t.host = s.host)

/-- R27, R33: what the output ports show. -/
def Obligations.PortsShowTheRegisters : Prop :=
  ∀ s : State, ((portsOut s).busy = true ↔ s.phase ≠ .idle) ∧ (portsOut s).done = s.done ∧ (portsOut s).ok = s.ok
    ∧ (portsOut s).lastHumidity = s.lastHumidity ∧ (portsOut s).lastTemperature = s.lastTemperature
    ∧ (portsOut s).pinSel = s.pin ∧ (portsOut s).lineOe = s.lineOe ∧ (portsOut s).lineOut = s.lineOut

/-- R83: in every phase but IDLE the ports `start` and `pin` are ignored: two clock steps that differ in them only end
in the same way; and without reset the attempt is left from VALIDATE alone. -/
def Obligations.CommandsWhileBusyAreIgnored : Prop :=
  (∀ (s : State) (p p' : PortsIn) (rest : List PortsIn), s.phase ≠ .idle → dueCall s = none → p'.rst = p.rst →
    p'.tick = p.tick → p'.lineIn = p.lineIn →
    (∀ t, step { s with script := p :: rest } = .next t →
      ∃ t', step { s with script := p' :: rest } = .next t' ∧ { t' with ports := t.ports } = t)
    ∧ (∀ r, step { s with script := p :: rest } = .fault r → step { s with script := p' :: rest } = .fault r))
  ∧ (∀ s t : State, s.phase ≠ .idle → s.phase ≠ .validate → dueCall s = none → (clockEdge s).ports.rst = false →
      step s = .next t → t.phase ≠ .idle)

/-- R23, R116: no rule reads `PIN`: a step from the same state with another pin identifier ends in the same way but for
`PIN`. -/
def Obligations.PinIdentifierIsNeverRead : Prop :=
  ∀ (s : State) (x : PinId),
    (∀ t, step s = .next t → ∃ t', step { s with pin := x } = .next t' ∧ { t' with pin := t.pin } = t)
    ∧ (∀ r, step s = .fault r → step { s with pin := x } = .fault r)

/-- R84: at a clock step the `done` pulse comes exactly when the step ends an attempt, and lasts one step. -/
def Obligations.OneDonePulseEndsAnAttempt : Prop :=
  ∀ s t : State, s.Inv → dueCall s = none → step s = .next t →
    (t.done = true ↔ s.phase = .validate ∧ (clockEdge s).ports.rst = false)

/-- R50: the results and `OK` change only at the end of an attempt (`OK` also at its start), and all at reset; and the
two result registers come from one frame. -/
def Obligations.ResultsChangeOnlyAtTheEnd : Prop :=
  ∀ s t : State, step s = .next t → dueCall s = none → (clockEdge s).ports.rst = false →
    (s.phase ≠ .validate → t.lastHumidity = s.lastHumidity ∧ t.lastTemperature = s.lastTemperature)
    ∧ (s.phase ≠ .validate → s.phase ≠ .idle → t.ok = s.ok)
    ∧ (s.phase = .idle → (clockEdge s).ports.start = false → t.ok = s.ok)

/-! ## Invariants -/

/-- The invariant (R31 and log entry 20) holds after reset. -/
def Obligations.ResetMeetsTheInvariant : Prop := State.reset.Inv

/-- R31: every step keeps the invariant. -/
def Obligations.StepKeepsTheInvariant : Prop := ∀ s t : State, s.Inv → step s = .next t → t.Inv

/-- R43, R63: from a state that meets the invariant no step stops: no word selects nothing and no address outside the
frame store is formed. -/
def Obligations.NoStepStopsUnderTheInvariant : Prop := ∀ s : State, s.Inv → ∃ t, step s = .next t

/-- Every step from any state keeps the canonical form of the frame store (log entry 3). -/
def Obligations.FrameStaysCanonical : Prop :=
  ∀ s t : State, Memory.wf s.frame = true → step s = .next t → Memory.wf t.frame = true

/-! ## Whole scans, whole attempts -/

/-- R99: the scan always ends: within 85 x 255 = 21675 tick steps, while no reset comes. -/
def Obligations.ScanEndsWithinItsBound : Prop :=
  ∀ (s : State) (q rest : List PortsIn), s.Inv → s.host.call = none → s.phase = .scan → s.script = q ++ rest →
    NoReset q → 21675 ≤ ticks q →
    ∃ (k : Nat) (t : State), k ≤ q.length ∧ Reaches k s t ∧ t.phase = .validate

/-- R150 with the premise of R149: an attempt in progress ends, with its `done` pulse, within `SETTLE_TICKS` +
`RELEASE_TICKS` + 21675 tick steps and one clock step, while no reset comes. -/
def Obligations.AttemptEndsWithinItsBound : Prop :=
  ∀ (s : State) (q rest : List PortsIn) (p : PortsIn), s.Inv → s.host.call = none → s.phase ≠ .idle →
    s.script = q ++ p :: rest → NoReset q → p.rst = false →
    Config.settleTicks + Config.releaseTicks + 21675 ≤ ticks q →
    ∃ (k : Nat) (t : State), k ≤ q.length + 1 ∧ Reaches k s t ∧ t.phase = .idle ∧ t.done = true

/-- R92: the step form meets the loop form. From the start of a scan, if the loop of R92 over the samples of the tick
steps reads exactly these samples, the machine is then in VALIDATE with the loop's slot, bits, frame and timeout. -/
def Obligations.ScanMeetsTheLoopForm : Prop :=
  ∀ (s : State) (q rest : List PortsIn) (e : ScanEnd), s.Inv → s.host.call = none → s.phase = .scan →
    s.slot = 0#7 → s.counter = 0#8 → s.script = q ++ rest → NoReset q → EndsWithTick q →
    scanStream (samples q) = some e → e.rest = [] →
    ∃ t, Reaches q.length s t ∧ t.phase = .validate ∧ t.script = rest ∧ t.slot.toNat = e.slot
      ∧ t.bitCount.toNat = e.bits.length ∧ t.timedOut = e.timedOut
      ∧ (∀ k, k < 5 → (Memory.read t.frame k).toNat = byteOfBits e.bits k)
      ∧ t.lastHumidity = s.lastHumidity ∧ t.lastTemperature = s.lastTemperature

/-- R116: a whole attempt is a function of the sample stream and the old results alone. From IDLE: the `ATTEMPT`
command, the handshake's tick steps, the scan's samples, one clock step more; whatever clock steps lie between the tick
steps, and whatever `pin` is. -/
def Obligations.AttemptIsAFunctionOfTheStream : Prop :=
  ∀ (s : State) (a p : PortsIn) (h q rest : List PortsIn) (e : ScanEnd), s.Inv → s.phase = .idle →
    s.host = HostState.quiet → s.script = a :: (h ++ (q ++ p :: rest)) → a.rst = false → a.start = true →
    NoReset h → ticks h = Config.settleTicks + Config.releaseTicks → EndsWithTick h →
    NoReset q → EndsWithTick q → p.rst = false → scanStream (samples q) = some e → e.rest = [] →
    ∃ t, Reaches (1 + h.length + q.length + 1) s t ∧ t.phase = .idle ∧ t.done = true ∧ t.script = rest
      ∧ (t.ok, t.lastHumidity, t.lastTemperature) = resultOfBits e.bits s.lastHumidity s.lastTemperature

/-! ## Claims about the wire and the pin: they take the premise of R143 -/

/-- R87 on the wire, with the premises of R143 and R147 for the pin of the attempt: from the state `ATTEMPT` leaves,
while no reset comes, the wire of that pin is driven low for `SETTLE_TICKS` tick steps, then high for `RELEASE_TICKS`, and
then not driven by the block. -/
def Obligations.SetUpPinIsDrivenLowThenHigh : Prop :=
  ∀ (e : Environment) (s : State) (q rest : List PortsIn), s.Inv → s.host.call = none → s.phase = .driveLow →
    s.delay.toNat = Config.settleTicks → s.script = q ++ rest → NoReset q →
    SetUpPremise e s.pin → ExclusivePremise e →
    (ticks q < Config.settleTicks →
      ∃ t, Reaches q.length s t ∧ (e.FollowsPorts (portsOut t) → e.driven s.pin = some false))
    ∧ (Config.settleTicks ≤ ticks q → ticks q < Config.settleTicks + Config.releaseTicks →
      ∃ t, Reaches q.length s t ∧ (e.FollowsPorts (portsOut t) → e.driven s.pin = some true))
    ∧ (ticks q = Config.settleTicks + Config.releaseTicks → EndsWithTick q →
      ∃ t, Reaches q.length s t ∧ (e.FollowsPorts (portsOut t) → e.driven s.pin = none))

/-- R116 on the wire, with the premises of R143 and R147 for the operand of the `ATTEMPT`: the result is the function of
the levels on the wire of that pin during the scan, and of the old results. -/
def Obligations.AttemptReadsItsSetUpPin : Prop :=
  ∀ (e : Environment) (s : State) (a p : PortsIn) (h q rest : List PortsIn) (x : ScanEnd), s.Inv → s.phase = .idle →
    s.host = HostState.quiet → s.script = a :: (h ++ (q ++ p :: rest)) → a.rst = false → a.start = true →
    NoReset h → ticks h = Config.settleTicks + Config.releaseTicks → EndsWithTick h →
    NoReset q → EndsWithTick q → p.rst = false → SetUpPremise e a.pin → ExclusivePremise e → e.Feeds a.pin q →
    scanStream (e.levels a.pin) = some x → x.rest = [] →
    ∃ t, Reaches (1 + h.length + q.length + 1) s t ∧ t.phase = .idle ∧ t.done = true ∧ (portsOut t).pinSel = a.pin
      ∧ (t.ok, t.lastHumidity, t.lastTemperature) = resultOfBits x.bits s.lastHumidity s.lastTemperature

/-- R118, R143: the premise taken for the operand of a `READ` holds of the pin of every attempt it gives: over a run
without reset, while the `READ` is in progress and has given an attempt, the pin selected is a set-up pin. -/
def Obligations.ReadStaysOnItsSetUpPin : Prop :=
  ∀ (e : Environment) (s t : State) (r r' : ReadProgress) (q rest : List PortsIn), s.host.call = none →
    s.host.reading = some r → r.awaiting = false → s.script = q ++ rest → NoReset q → Reaches q.length s t →
    t.host.reading = some r' → SetUpPremise e r.pin →
    r'.pin = r.pin ∧ (r'.awaiting = true → (portsOut t).pinSel = r.pin ∧ SetUpPremise e (portsOut t).pinSel)
end

