-- ==== Sys2Proof/Laws/Memory.lean ====
section
/-! SUPPORT. The laws of the frame store's byte access: read after write, and the canonical form. -/

namespace Sys2Proof.Machine

@[simp] theorem Memory.read_nil (a : Nat) : Memory.read [] a = Config.frameDefault := rfl

@[simp] theorem Memory.read_cleared (a : Nat) : Memory.read Memory.cleared a = 0#8 := rfl

theorem Memory.read_erase (m : Memory) (a k : Nat) :
    Memory.read (Memory.erase m a) k = if k = a then Config.frameDefault else Memory.read m k := by
  induction m with
  | nil => simp [Memory.erase]
  | cons c m ih =>
    obtain ⟨b, v⟩ := c
    by_cases hb : b = a
    · subst hb
      rw [Memory.erase, if_pos rfl, ih]
      by_cases hk : k = b
      · simp [hk]
      · simp [Memory.read, hk, Ne.symm hk]
    · by_cases hk : b = k
      · subst hk
        simp [Memory.erase, hb, Memory.read]
      · simp [Memory.erase, hb, Memory.read, hk, ih]

theorem Memory.read_insert_erase (m : Memory) (a k : Nat) (v : Byte) :
    Memory.read (Memory.insert (Memory.erase m a) a v) k = if k = a then v else Memory.read m k := by
  induction m with
  | nil => simp [Memory.erase, Memory.insert, Memory.read, eq_comm]
  | cons c m ih =>
    obtain ⟨b, w⟩ := c
    by_cases hb : b = a
    · subst hb
      simp only [Memory.erase, if_true, ih, Memory.read]
      by_cases hk : k = b
      · simp [hk]
      · simp [hk, Ne.symm hk]
    · simp only [Memory.erase, hb, if_false, Memory.insert]
      by_cases hlt : a < b
      · have := Memory.read_erase m a k
        by_cases hk : k = a
        · subst hk
          simp [hlt, Memory.read]
        · simp [hlt, Memory.read, Ne.symm hk, this, hk]
      · by_cases hk : b = k
        · subst hk
          simp [hlt, Memory.read, hb]
        · simp [hlt, Memory.read, hk, ih]

/-- Read after write: the written address gives the byte written, every other address what it gave. -/
theorem Memory.read_write (m : Memory) (a k : Nat) (v : Byte) :
    Memory.read (Memory.write m a v) k = if k = a then v else Memory.read m k := by
  unfold Memory.write
  split
  · rename_i hv
    rw [Memory.read_erase, hv]
  · exact Memory.read_insert_erase m a k v

@[simp] theorem Memory.read_write_same (m : Memory) (a : Nat) (v : Byte) :
    Memory.read (Memory.write m a v) a = v := by
  simp [Memory.read_write]

theorem Memory.read_write_other (m : Memory) {a k : Nat} (v : Byte) (h : k ≠ a) :
    Memory.read (Memory.write m a v) k = Memory.read m k := by
  simp [Memory.read_write, h]

/-! ## The canonical form -/

theorem Memory.wfFrom_cons {lo a : Nat} {v : Byte} {m : Memory} :
    Memory.wfFrom lo ((a, v) :: m) = true ↔
      lo ≤ a ∧ a < Config.frameBytes ∧ v ≠ Config.frameDefault ∧ Memory.wfFrom (a + 1) m = true := by
  simp [Memory.wfFrom, and_assoc]

theorem Memory.wfFrom_mono {lo lo' : Nat} {m : Memory} (h : Memory.wfFrom lo m = true) (hl : lo' ≤ lo) :
    Memory.wfFrom lo' m = true := by
  cases m with
  | nil => rfl
  | cons c m =>
    obtain ⟨a, v⟩ := c
    rw [Memory.wfFrom_cons] at h ⊢
    exact ⟨by omega, h.2⟩

theorem Memory.wfFrom_erase {lo : Nat} {m : Memory} (a : Nat) (h : Memory.wfFrom lo m = true) :
    Memory.wfFrom lo (Memory.erase m a) = true := by
  induction m generalizing lo with
  | nil => rfl
  | cons c m ih =>
    obtain ⟨b, v⟩ := c
    rw [Memory.wfFrom_cons] at h
    unfold Memory.erase
    split
    · exact ih (Memory.wfFrom_mono h.2.2.2 (by omega))
    · rw [Memory.wfFrom_cons]
      exact ⟨h.1, h.2.1, h.2.2.1, ih h.2.2.2⟩

theorem Memory.wfFrom_insert_erase {lo : Nat} {m : Memory} {a : Nat} {v : Byte} (h : Memory.wfFrom lo m = true)
    (hlo : lo ≤ a) (ha : a < Config.frameBytes) (hv : v ≠ Config.frameDefault) :
    Memory.wfFrom lo (Memory.insert (Memory.erase m a) a v) = true := by
  induction m generalizing lo with
  | nil => exact Memory.wfFrom_cons.2 ⟨hlo, ha, hv, rfl⟩
  | cons c m ih =>
    obtain ⟨b, w⟩ := c
    rw [Memory.wfFrom_cons] at h
    obtain ⟨hb, hb5, hw, hm⟩ := h
    unfold Memory.erase
    split
    · exact ih (Memory.wfFrom_mono hm (by omega)) hlo
    · rename_i hne
      unfold Memory.insert
      split
      · rename_i hlt
        rw [Memory.wfFrom_cons, Memory.wfFrom_cons]
        exact ⟨hlo, ha, hv, by omega, hb5, hw, Memory.wfFrom_erase a hm⟩
      · rw [Memory.wfFrom_cons]
        exact ⟨hb, hb5, hw, ih hm (by omega)⟩

/-- A write inside the frame store keeps the canonical form. -/
theorem Memory.wf_write {m : Memory} (h : Memory.wf m = true) {a : Nat} (ha : a < Config.frameBytes) (v : Byte) :
    Memory.wf (Memory.write m a v) = true := by
  unfold Memory.write
  split
  · exact Memory.wfFrom_erase a h
  · rename_i hv
    exact Memory.wfFrom_insert_erase h (Nat.zero_le a) ha hv

@[simp] theorem Memory.wf_cleared : Memory.wf Memory.cleared = true := rfl

/-- Below the lowest address listed, and beyond the frame store, a canonical memory reads as unlisted. -/
theorem Memory.read_of_lt {lo : Nat} {m : Memory} (h : Memory.wfFrom lo m = true) {k : Nat}
    (hk : k < lo ∨ Config.frameBytes ≤ k) : Memory.read m k = Config.frameDefault := by
  induction m generalizing lo with
  | nil => rfl
  | cons c m ih =>
    obtain ⟨a, v⟩ := c
    rw [Memory.wfFrom_cons] at h
    unfold Memory.read
    split
    · omega
    · exact ih h.2.2.2 (by omega)

theorem Memory.eq_of_read_eq_from {lo : Nat} {m m' : Memory} (h : Memory.wfFrom lo m = true)
    (h' : Memory.wfFrom lo m' = true) (hr : ∀ k, Memory.read m k = Memory.read m' k) : m = m' := by
  induction m generalizing lo m' with
  | nil =>
    cases m' with
    | nil => rfl
    | cons c m' =>
      obtain ⟨a, v⟩ := c
      rw [Memory.wfFrom_cons] at h'
      have := hr a
      simp [Memory.read] at this
      exact absurd this.symm h'.2.2.1
  | cons c m ih =>
    obtain ⟨a, v⟩ := c
    rw [Memory.wfFrom_cons] at h
    cases m' with
    | nil =>
      have := hr a
      simp [Memory.read] at this
      exact absurd this h.2.2.1
    | cons c' m' =>
      obtain ⟨b, w⟩ := c'
      rw [Memory.wfFrom_cons] at h'
      have hab : a = b := by
        rcases Nat.lt_trichotomy a b with hlt | heq | hgt
        · have h1 := hr a
          rw [Memory.read_of_lt (lo := b) (m := (b, w) :: m') (by rw [Memory.wfFrom_cons]; exact ⟨le_refl b, h'.2⟩)
            (Or.inl hlt)] at h1
          simp [Memory.read] at h1
          exact absurd h1 h.2.2.1
        · exact heq
        · have h1 := hr b
          rw [Memory.read_of_lt (lo := a) (m := (a, v) :: m) (by rw [Memory.wfFrom_cons]; exact ⟨le_refl a, h.2⟩)
            (Or.inl hgt)] at h1
          simp [Memory.read] at h1
          exact absurd h1.symm h'.2.2.1
      subst hab
      have hv : v = w := by simpa [Memory.read] using hr a
      subst hv
      have htl : m = m' := by
        refine ih h.2.2.2 h'.2.2.2 fun k => ?_
        by_cases hk : a = k
        · subst hk
          rw [Memory.read_of_lt h.2.2.2 (Or.inl (Nat.lt_succ_self a)),
            Memory.read_of_lt h'.2.2.2 (Or.inl (Nat.lt_succ_self a))]
        · simpa [Memory.read, hk] using hr k
      rw [htl]

/-- Canonical memories that read the same everywhere are equal data. -/
theorem Memory.eq_of_read_eq {m m' : Memory} (h : Memory.wf m = true) (h' : Memory.wf m' = true)
    (hr : ∀ k, Memory.read m k = Memory.read m' k) : m = m' :=
  Memory.eq_of_read_eq_from h h' hr

end Sys2Proof.Machine
end

