-- ==== Sys2Proof/Laws/State.lean ====
section
/-! SUPPORT. What each shared update does to each field of the state, field by field. -/

namespace Sys2Proof.Machine

/-! ## the transition step (R95, R96) -/

@[simp] theorem transition_frame (s : State) : (transition s).frame = s.frame := rfl
@[simp] theorem transition_lastHumidity (s : State) : (transition s).lastHumidity = s.lastHumidity := rfl
@[simp] theorem transition_lastTemperature (s : State) : (transition s).lastTemperature = s.lastTemperature := rfl
@[simp] theorem transition_phase (s : State) : (transition s).phase = if s.slot.toNat = 84 then .validate else s.phase := rfl
@[simp] theorem transition_slot (s : State) : (transition s).slot = s.slot + 1#7 := rfl
@[simp] theorem transition_counter (s : State) : (transition s).counter = 0#8 := rfl
@[simp] theorem transition_lastState (s : State) : (transition s).lastState = s.ports.lineIn := rfl
@[simp] theorem transition_bitCount (s : State) : (transition s).bitCount = s.bitCount := rfl
@[simp] theorem transition_delay (s : State) : (transition s).delay = s.delay := rfl
@[simp] theorem transition_pin (s : State) : (transition s).pin = s.pin := rfl
@[simp] theorem transition_lineOe (s : State) : (transition s).lineOe = s.lineOe := rfl
@[simp] theorem transition_lineOut (s : State) : (transition s).lineOut = s.lineOut := rfl
@[simp] theorem transition_ok (s : State) : (transition s).ok = s.ok := rfl
@[simp] theorem transition_done (s : State) : (transition s).done = s.done := rfl
@[simp] theorem transition_timedOut (s : State) : (transition s).timedOut = s.timedOut := rfl
@[simp] theorem transition_ports (s : State) : (transition s).ports = s.ports := rfl
@[simp] theorem transition_script (s : State) : (transition s).script = s.script := rfl
@[simp] theorem transition_edge (s : State) : (transition s).edge = s.edge := rfl
@[simp] theorem transition_host (s : State) : (transition s).host = s.host := rfl

/-! ## the end of an attempt (R112, R113) -/

@[simp] theorem endAttempt_frame (b : Bool) (s : State) : (endAttempt b s).frame = s.frame := rfl
@[simp] theorem endAttempt_lastHumidity (b : Bool) (s : State) : (endAttempt b s).lastHumidity = s.lastHumidity := rfl
@[simp] theorem endAttempt_lastTemperature (b : Bool) (s : State) : (endAttempt b s).lastTemperature = s.lastTemperature := rfl
@[simp] theorem endAttempt_phase (b : Bool) (s : State) : (endAttempt b s).phase = .idle := rfl
@[simp] theorem endAttempt_slot (b : Bool) (s : State) : (endAttempt b s).slot = s.slot := rfl
@[simp] theorem endAttempt_counter (b : Bool) (s : State) : (endAttempt b s).counter = s.counter := rfl
@[simp] theorem endAttempt_lastState (b : Bool) (s : State) : (endAttempt b s).lastState = s.lastState := rfl
@[simp] theorem endAttempt_bitCount (b : Bool) (s : State) : (endAttempt b s).bitCount = s.bitCount := rfl
@[simp] theorem endAttempt_delay (b : Bool) (s : State) : (endAttempt b s).delay = s.delay := rfl
@[simp] theorem endAttempt_pin (b : Bool) (s : State) : (endAttempt b s).pin = s.pin := rfl
@[simp] theorem endAttempt_lineOe (b : Bool) (s : State) : (endAttempt b s).lineOe = s.lineOe := rfl
@[simp] theorem endAttempt_lineOut (b : Bool) (s : State) : (endAttempt b s).lineOut = s.lineOut := rfl
@[simp] theorem endAttempt_ok (b : Bool) (s : State) : (endAttempt b s).ok = b := rfl
@[simp] theorem endAttempt_done (b : Bool) (s : State) : (endAttempt b s).done = true := rfl
@[simp] theorem endAttempt_timedOut (b : Bool) (s : State) : (endAttempt b s).timedOut = s.timedOut := rfl
@[simp] theorem endAttempt_ports (b : Bool) (s : State) : (endAttempt b s).ports = s.ports := rfl
@[simp] theorem endAttempt_script (b : Bool) (s : State) : (endAttempt b s).script = s.script := rfl
@[simp] theorem endAttempt_edge (b : Bool) (s : State) : (endAttempt b s).edge = s.edge := rfl
@[simp] theorem endAttempt_host (b : Bool) (s : State) : (endAttempt b s).host = s.host := rfl

/-! ## reset (R32, R82) -/

@[simp] theorem resetOp_frame (s : State) : (resetOp s).frame = [] := rfl
@[simp] theorem resetOp_lastHumidity (s : State) : (resetOp s).lastHumidity = 0xD8F1#16 := rfl
@[simp] theorem resetOp_lastTemperature (s : State) : (resetOp s).lastTemperature = 0xD8F1#16 := rfl
@[simp] theorem resetOp_phase (s : State) : (resetOp s).phase = .idle := rfl
@[simp] theorem resetOp_slot (s : State) : (resetOp s).slot = 0#7 := rfl
@[simp] theorem resetOp_counter (s : State) : (resetOp s).counter = 0#8 := rfl
@[simp] theorem resetOp_lastState (s : State) : (resetOp s).lastState = true := rfl
@[simp] theorem resetOp_bitCount (s : State) : (resetOp s).bitCount = 0#6 := rfl
@[simp] theorem resetOp_delay (s : State) : (resetOp s).delay = 0#Config.delayWidth := rfl
@[simp] theorem resetOp_pin (s : State) : (resetOp s).pin = 0#8 := rfl
@[simp] theorem resetOp_lineOe (s : State) : (resetOp s).lineOe = false := rfl
@[simp] theorem resetOp_lineOut (s : State) : (resetOp s).lineOut = true := rfl
@[simp] theorem resetOp_ok (s : State) : (resetOp s).ok = false := rfl
@[simp] theorem resetOp_done (s : State) : (resetOp s).done = false := rfl
@[simp] theorem resetOp_timedOut (s : State) : (resetOp s).timedOut = false := rfl
@[simp] theorem resetOp_ports (s : State) : (resetOp s).ports = s.ports := rfl
@[simp] theorem resetOp_script (s : State) : (resetOp s).script = s.script := rfl
@[simp] theorem resetOp_edge (s : State) : (resetOp s).edge = s.edge := rfl
@[simp] theorem resetOp_host (s : State) : (resetOp s).host = HostState.quiet := rfl

/-! ## a rising edge of `clk` (log entry 1) -/

@[simp] theorem clockEdge_frame (s : State) : (clockEdge s).frame = s.frame := rfl
@[simp] theorem clockEdge_lastHumidity (s : State) : (clockEdge s).lastHumidity = s.lastHumidity := rfl
@[simp] theorem clockEdge_lastTemperature (s : State) : (clockEdge s).lastTemperature = s.lastTemperature := rfl
@[simp] theorem clockEdge_phase (s : State) : (clockEdge s).phase = s.phase := rfl
@[simp] theorem clockEdge_slot (s : State) : (clockEdge s).slot = s.slot := rfl
@[simp] theorem clockEdge_counter (s : State) : (clockEdge s).counter = s.counter := rfl
@[simp] theorem clockEdge_lastState (s : State) : (clockEdge s).lastState = s.lastState := rfl
@[simp] theorem clockEdge_bitCount (s : State) : (clockEdge s).bitCount = s.bitCount := rfl
@[simp] theorem clockEdge_delay (s : State) : (clockEdge s).delay = s.delay := rfl
@[simp] theorem clockEdge_pin (s : State) : (clockEdge s).pin = s.pin := rfl
@[simp] theorem clockEdge_lineOe (s : State) : (clockEdge s).lineOe = s.lineOe := rfl
@[simp] theorem clockEdge_lineOut (s : State) : (clockEdge s).lineOut = s.lineOut := rfl
@[simp] theorem clockEdge_ok (s : State) : (clockEdge s).ok = s.ok := rfl
@[simp] theorem clockEdge_done (s : State) : (clockEdge s).done = s.done := rfl
@[simp] theorem clockEdge_timedOut (s : State) : (clockEdge s).timedOut = s.timedOut := rfl
theorem clockEdge_ports (s : State) : (clockEdge s).ports = (hostMove s (comingPorts s)).2 := rfl
@[simp] theorem clockEdge_script (s : State) : (clockEdge s).script = s.script.tail := rfl
@[simp] theorem clockEdge_edge (s : State) : (clockEdge s).edge = s.edge + 1 := rfl
theorem clockEdge_host (s : State) : (clockEdge s).host = (hostMove s (comingPorts s)).1 := rfl

/-! ## The fields of the reset state (R32) -/

@[simp] theorem reset_frame : State.reset.frame = [] := rfl
@[simp] theorem reset_phase : State.reset.phase = .idle := rfl
@[simp] theorem reset_bitCount : State.reset.bitCount = 0#6 := rfl
@[simp] theorem reset_slot : State.reset.slot = 0#7 := rfl
@[simp] theorem reset_counter : State.reset.counter = 0#8 := rfl
@[simp] theorem reset_delay : State.reset.delay = 0#Config.delayWidth := rfl
@[simp] theorem reset_host : State.reset.host = HostState.quiet := rfl

end Sys2Proof.Machine
end

