-- ==== Sys2Proof/Laws/Ops.lean ====
section
/-! SUPPORT. For each shared operation, everything it can do. -/

namespace Sys2Proof.Machine

/-- Shifting a bit in is doubling and adding, modulo 256 (20_memory.md R38). -/
theorem shiftIn_eq (v : Byte) (b : Bool) : shiftIn v b = BitVec.ofNat 8 (2 * v.toNat + b.toNat) := by
  revert v b
  decide

theorem shiftIn_toNat (v : Byte) (b : Bool) : (shiftIn v b).toNat = (2 * v.toNat + b.toNat) % 256 := by
  rw [shiftIn_eq, BitVec.toNat_ofNat]

/-- The append at an address that exists (R37). -/
theorem appendBit_inside {s : State} (b : Bool) (h : s.bitCount.toNat < 40) :
    appendBit b s = .next
      { s with
        frame := Memory.write s.frame (bitAddress s) (shiftIn (Memory.read s.frame (bitAddress s)) b)
        bitCount := s.bitCount + 1#6 } := by
  have hk : bitAddress s < Config.frameBytes := by unfold bitAddress Config.frameBytes; omega
  simp [appendBit, readFrame, writeFrame, hk]

/-- The append at an address that does not exist (log entry 6). -/
theorem appendBit_outside {s : State} (b : Bool) (h : 40 ≤ s.bitCount.toNat) :
    appendBit b s = .fault (.noFrameByte (bitAddress s)) := by
  have hk : ¬ bitAddress s < Config.frameBytes := by unfold bitAddress Config.frameBytes; omega
  simp [appendBit, readFrame, hk]

/-- A data slot with room for its bit (R103, R104). -/
theorem shiftOp_inside {s : State} (b : Bool) (h : s.bitCount.toNat < 40) :
    shiftOp b s = .next
      (transition
        { s with
          frame := Memory.write s.frame (bitAddress s) (shiftIn (Memory.read s.frame (bitAddress s)) b)
          bitCount := s.bitCount + 1#6 }) := by
  simp [shiftOp, appendBit_inside b h]

theorem shiftOp_outside {s : State} (b : Bool) (h : 40 ≤ s.bitCount.toNat) :
    shiftOp b s = .fault (.noFrameByte (bitAddress s)) := by
  simp [shiftOp, appendBit_outside b h]

/-- A data slot that answers a next state had room, and this is that state. -/
theorem shiftOp_next {s t : State} {b : Bool} (h : shiftOp b s = .next t) :
    s.bitCount.toNat < 40 ∧
      t = transition
        { s with
          frame := Memory.write s.frame (bitAddress s) (shiftIn (Memory.read s.frame (bitAddress s)) b)
          bitCount := s.bitCount + 1#6 } := by
  by_cases hlt : s.bitCount.toNat < 40
  · rw [shiftOp_inside b hlt] at h
    exact ⟨hlt, by injection h with h; exact h.symm⟩
  · rw [shiftOp_outside b (by omega)] at h
    cases h

/-! ## The conditions -/

/-- The accumulator is full (30_encoding.md R63). -/
theorem full_eq (s : State) : full s = decide (s.bitCount.toNat = 40) := rfl

/-- Enough bits are in (44_validate_commit.md R114). -/
theorem enoughBits_iff (s : State) : enoughBits s = true ↔ 40 ≤ s.bitCount.toNat := decide_eq_true_iff

/-- The checksum is right (R111): the exact sum of the four data bytes, modulo 256. -/
theorem checksumEqual_iff (s : State) :
    checksumEqual s = true ↔
      (Memory.read s.frame 4).toNat = ((Memory.read s.frame 0).toNat + (Memory.read s.frame 1).toNat
        + (Memory.read s.frame 2).toNat + (Memory.read s.frame 3).toNat) % 256 := by
  unfold checksumEqual sum8
  rw [decide_eq_true_iff, ← BitVec.toNat_inj, BitVec.toNat_ofNat]

/-- The validity predicate (R114). -/
theorem valid_iff (s : State) :
    valid s = true ↔ 40 ≤ s.bitCount.toNat ∧
      (Memory.read s.frame 4).toNat = ((Memory.read s.frame 0).toNat + (Memory.read s.frame 1).toNat
        + (Memory.read s.frame 2).toNat + (Memory.read s.frame 3).toNat) % 256 := by
  unfold valid
  rw [Bool.and_eq_true, enoughBits_iff, checksumEqual_iff]

@[simp] theorem busy_iff (s : State) : busy s = true ↔ s.phase ≠ .idle := by simp [busy]

/-- The larger duration fits into `DELAY_W` bits (00_scope.md R7). -/
theorem max_lt_delayWidth : max Config.settleTicks Config.releaseTicks < 2 ^ Config.delayWidth :=
  Nat.lt_log2_self

theorem one_le_settleTicks : 1 ≤ Config.settleTicks := Nat.succ_pos _

theorem one_le_releaseTicks : 1 ≤ Config.releaseTicks := Nat.succ_pos _

/-- What `ATTEMPT` loads is `SETTLE_TICKS`. -/
@[simp] theorem delayOf_settleTicks : (delayOf Config.settleTicks).toNat = Config.settleTicks := by
  have h := max_lt_delayWidth
  rw [delayOf, BitVec.toNat_ofNat, Nat.mod_eq_of_lt (by omega)]

/-- What `RAISE` loads is `RELEASE_TICKS`. -/
@[simp] theorem delayOf_releaseTicks : (delayOf Config.releaseTicks).toNat = Config.releaseTicks := by
  have h := max_lt_delayWidth
  rw [delayOf, BitVec.toNat_ofNat, Nat.mod_eq_of_lt (by omega)]

theorem two_le_two_pow_delayWidth : 2 ≤ 2 ^ Config.delayWidth := Nat.one_lt_two_pow (Nat.succ_ne_zero _)

/-- `DELAY - 1` where R88 defines it. -/
theorem delayDown_of_ne_zero {d : BitVec Config.delayWidth} (h : d.toNat ≠ 0) :
    (delayDown d).toNat = d.toNat - 1 := by
  have h1 : (1#Config.delayWidth).toNat = 1 := by
    rw [BitVec.toNat_ofNat, Nat.mod_eq_of_lt two_le_two_pow_delayWidth]
  have hd := d.isLt
  rw [delayDown, BitVec.toNat_sub, h1, show 2 ^ Config.delayWidth - 1 + d.toNat = d.toNat - 1 + 2 ^ Config.delayWidth by omega,
    Nat.add_mod_right, Nat.mod_eq_of_lt (by omega)]

/-- `DELAY - 1` at 0, where it wraps (log entry 5). -/
theorem delayDown_of_zero {d : BitVec Config.delayWidth} (h : d.toNat = 0) :
    (delayDown d).toNat = 2 ^ Config.delayWidth - 1 := by
  have h1 : (1#Config.delayWidth).toNat = 1 := by
    rw [BitVec.toNat_ofNat, Nat.mod_eq_of_lt two_le_two_pow_delayWidth]
  have h2 := two_le_two_pow_delayWidth
  rw [delayDown, BitVec.toNat_sub, h1, h, Nat.mod_eq_of_lt (by omega), Nat.add_zero]

/-! ## The host's move (45_retry_read.md R118) -/

/-- The host changes `start` and `pin` only. -/
@[simp] theorem hostMove_rst (s : State) (p : PortsIn) : (hostMove s p).2.rst = p.rst := by
  unfold hostMove hostGive hostReturn
  repeat' split
  all_goals rfl

@[simp] theorem hostMove_tick (s : State) (p : PortsIn) : (hostMove s p).2.tick = p.tick := by
  unfold hostMove hostGive hostReturn
  repeat' split
  all_goals rfl

@[simp] theorem hostMove_lineIn (s : State) (p : PortsIn) : (hostMove s p).2.lineIn = p.lineIn := by
  unfold hostMove hostGive hostReturn
  repeat' split
  all_goals rfl

/-- The host's move never makes a call of `READ`. -/
@[simp] theorem hostMove_call (s : State) (p : PortsIn) : (hostMove s p).1.call = s.host.call := by
  unfold hostMove hostGive hostReturn
  repeat' split
  all_goals rfl

/-- With no `READ` in progress the environment's ports stand. -/
theorem hostMove_quiet {s : State} (h : s.host.reading = none) (p : PortsIn) : hostMove s p = (s.host, p) := by
  simp [hostMove, h]

/-- The host's move looks at its own state, the phase, the flags and the result registers only. -/
theorem hostMove_congr {s t : State} (hh : t.host = s.host) (hp : t.phase = s.phase) (hd : t.done = s.done)
    (ho : t.ok = s.ok) (hl : t.lastHumidity = s.lastHumidity) (ht : t.lastTemperature = s.lastTemperature)
    (p : PortsIn) : hostMove t p = hostMove s p := by
  simp [hostMove, hostGive, hostReturn, busy, hh, hp, hd, ho, hl, ht]

theorem clockEdge_rst (s : State) : (clockEdge s).ports.rst = (comingPorts s).rst := hostMove_rst s (comingPorts s)

theorem clockEdge_tick (s : State) : (clockEdge s).ports.tick = (comingPorts s).tick := hostMove_tick s (comingPorts s)

theorem clockEdge_lineIn (s : State) : (clockEdge s).ports.lineIn = (comingPorts s).lineIn :=
  hostMove_lineIn s (comingPorts s)

@[simp] theorem clockEdge_call (s : State) : (clockEdge s).host.call = s.host.call := hostMove_call s (comingPorts s)

theorem comingPorts_cons {s : State} {p : PortsIn} {q : List PortsIn} (h : s.script = p :: q) :
    comingPorts s = p := by
  simp [comingPorts, h]

/-- With no call to make, the step is a clock step. -/
theorem dueCall_of_call_none {s : State} (h : s.host.call = none) : dueCall s = none := by
  unfold dueCall
  split <;> simp [h]

end Sys2Proof.Machine
end

