-- ==== Sys2Proof/Laws/Selection.lean ====
section
/-! SUPPORT. The fields of a selection word read back, and what each format's word decodes to in terms of them. -/

namespace Sys2Proof

/-- The bits of a SLOT word (R63). -/
theorem slotWord_getLsbD (t f : Bool) (i : BitVec 7) (c : BitVec 8) (k : Nat) :
    (slotWord t f i c).getLsbD k =
      if k < 8 then c.getLsbD k
      else if k < 15 then i.getLsbD (k - 8)
      else if k = 15 then f
      else (decide (k = 16) && t) := by
  change (((BitVec.ofBool t ++ BitVec.ofBool f) ++ i) ++ c : BitVec (1 + 1 + 7 + 8)).getLsbD k = _
  rw [BitVec.getLsbD_append, BitVec.getLsbD_append, BitVec.getLsbD_append, BitVec.getLsbD_ofBool,
    BitVec.getLsbD_ofBool]
  by_cases h8 : k < 8
  · simp [h8]
  by_cases h15 : k < 15
  · simp [h8, h15]; omega
  have e1 : ¬ k - 8 < 7 := by omega
  by_cases h16 : k = 15
  · subst h16; simp
  by_cases h17 : k = 16
  · subst h17; simp
  have e2 : ¬ k - 8 - 7 < 1 := by omega
  have e3 : ¬ k - 8 - 7 - 1 = 0 := by omega
  simp [h8, h15, e1, e2, e3, h16, h17]

/-- The bits of a CMD word (R60). -/
theorem cmdWord_getLsbD (b : Bool) (p : PinId) (k : Nat) :
    (cmdWord b p).getLsbD k = if k < 8 then p.getLsbD k else (decide (k = 8) && b) := by
  change (BitVec.ofBool b ++ p : BitVec (1 + 8)).getLsbD k = _
  rw [BitVec.getLsbD_append, BitVec.getLsbD_ofBool]
  by_cases h8 : k < 8
  · simp [h8]
  by_cases h9 : k = 8
  · subst h9; simp
  have e : ¬ k - 8 = 0 := by omega
  simp [h8, h9, e]

theorem cmdWord_start (b : Bool) (p : PinId) : (cmdWord b p).getLsbD 8 = b := by
  rw [cmdWord_getLsbD]; simp

@[simp] theorem cmdWord_pin (b : Bool) (p : PinId) : (cmdWord b p).extractLsb' 0 8 = p := by
  apply BitVec.eq_of_getLsbD_eq
  intro k hk
  rw [BitVec.getLsbD_extractLsb', Nat.zero_add, cmdWord_getLsbD]
  simp [hk]

theorem seqWord_p (p l : Bool) : (seqWord p l).getLsbD 1 = p := by cases p <;> cases l <;> rfl

theorem seqWord_l (p l : Bool) : (seqWord p l).getLsbD 0 = l := by cases p <;> cases l <;> rfl

theorem valWord_n (n s : Bool) : (valWord n s).getLsbD 1 = n := by cases n <;> cases s <;> rfl

theorem valWord_s (n s : Bool) : (valWord n s).getLsbD 0 = s := by cases n <;> cases s <;> rfl

theorem slotWord_t (t f : Bool) (i : BitVec 7) (c : BitVec 8) : (slotWord t f i c).getLsbD 16 = t := by
  rw [slotWord_getLsbD]; simp

theorem slotWord_f (t f : Bool) (i : BitVec 7) (c : BitVec 8) : (slotWord t f i c).getLsbD 15 = f := by
  rw [slotWord_getLsbD]; simp

@[simp] theorem slotWord_i (t f : Bool) (i : BitVec 7) (c : BitVec 8) : (slotWord t f i c).extractLsb' 8 7 = i := by
  apply BitVec.eq_of_getLsbD_eq
  intro k hk
  have h1 : ¬ 8 + k < 8 := by omega
  have h2 : 8 + k < 15 := by omega
  rw [BitVec.getLsbD_extractLsb', slotWord_getLsbD, if_neg h1, if_pos h2, Nat.add_sub_cancel_left]
  simp [hk]

@[simp] theorem slotWord_c (t f : Bool) (i : BitVec 7) (c : BitVec 8) : (slotWord t f i c).extractLsb' 0 8 = c := by
  apply BitVec.eq_of_getLsbD_eq
  intro k hk
  rw [BitVec.getLsbD_extractLsb', Nat.zero_add, slotWord_getLsbD]
  simp [hk]

theorem cmdWord_toNat (b : Bool) (p : PinId) : (cmdWord b p).toNat = 256 * b.toNat + p.toNat := by
  have hp := p.isLt
  change (BitVec.ofBool b ++ p : BitVec (1 + 8)).toNat = _
  rw [BitVec.toNat_append, BitVec.toNat_ofBool, ← Nat.shiftLeft_add_eq_or_of_lt hp, Nat.shiftLeft_eq]
  omega

theorem slotWord_toNat (t f : Bool) (i : BitVec 7) (c : BitVec 8) :
    (slotWord t f i c).toNat = 65536 * t.toNat + 32768 * f.toNat + 256 * i.toNat + c.toNat := by
  have hi := i.isLt
  have hc := c.isLt
  have hf : f.toNat < 2 ^ 1 := by simpa using f.toNat_lt
  change (((BitVec.ofBool t ++ BitVec.ofBool f) ++ i) ++ c : BitVec (1 + 1 + 7 + 8)).toNat = _
  rw [BitVec.toNat_append, BitVec.toNat_append, BitVec.toNat_append, BitVec.toNat_ofBool, BitVec.toNat_ofBool,
    ← Nat.shiftLeft_add_eq_or_of_lt hc, ← Nat.shiftLeft_add_eq_or_of_lt hi, ← Nat.shiftLeft_add_eq_or_of_lt hf]
  simp only [Nat.shiftLeft_eq]
  omega

/-- Every CMD word is made of its two fields. -/
theorem cmdWord_fields (w : BitVec 9) : cmdWord (w.getLsbD 8) (w.extractLsb' 0 8) = w := by
  revert w
  decide

/-- Every SLOT word is made of its four fields. -/
theorem slotWord_fields (w : BitVec 17) :
    slotWord (w.getLsbD 16) (w.getLsbD 15) (w.extractLsb' 8 7) (w.extractLsb' 0 8) = w := by
  apply BitVec.eq_of_getLsbD_eq
  intro k hk
  rw [slotWord_getLsbD, BitVec.getLsbD_extractLsb', BitVec.getLsbD_extractLsb']
  by_cases h8 : k < 8
  · simp only [h8, if_true, decide_true, Bool.true_and, Nat.zero_add]
  by_cases h15 : k < 15
  · have h7 : k - 8 < 7 := by omega
    have e : 8 + (k - 8) = k := by omega
    simp only [h8, h15, h7, e, if_true, if_false, decide_true, Bool.true_and]
  rcases (by omega : k = 15 ∨ k = 16) with rfl | rfl
  · simp only [if_true, if_false, show ¬ 15 < 8 by omega, show ¬ 15 < 15 by omega]
  · simp only [if_false, show ¬ 16 < 8 by omega, show ¬ 16 < 15 by omega, show ¬ 16 = 15 by omega, decide_true,
      Bool.true_and]

theorem decode_cmdWord (b : Bool) (p : PinId) :
    decode (.cmd (cmdWord b p)) = .ok (if b then .attempt p else .nop) := by
  simp only [decode, decodeCmd, cmdWord_start, cmdWord_pin]

theorem decode_seqWord (p l : Bool) :
    decode (.seq (seqWord p l)) = .ok (if l then (if p then .release else .raise) else .wait) := by
  simp only [decode, decodeSeq, seqWord_p, seqWord_l]

theorem decode_valWord (n s : Bool) :
    decode (.val (valWord n s)) = .ok (if n && s then .commit else .reject n s) := by
  simp only [decode, decodeVal, valWord_n, valWord_s]

/-- The order of the conditions (R100). -/
theorem decodeTransition_eq (f : Bool) (i : BitVec 7) (c : BitVec 8) :
    decodeTransition f i c =
      if i.toNat < 4 then .skiph i c
      else if i.toNat % 2 ≠ 0 then .skipm i c
      else if f then .drop i c
      else if bitOf c then .shift1 i c
      else .shift0 i c := rfl

/-- The classifier (R106). -/
theorem bitOf_iff (c : BitVec 8) : bitOf c = true ↔ 16 < c.toNat := decide_eq_true_iff

theorem decode_slotWord (t f : Bool) (i : BitVec 7) (c : BitVec 8) :
    decode (.slot (slotWord t f i c)) =
      if 85 ≤ i.toNat then .error .slotBeyondScan
      else if 255 ≤ c.toNat then .error .countSentinel
      else if t then .ok (decodeTransition f i c)
      else if c.toNat = 254 then .ok (.tmo i)
      else .ok (.count i c) := by
  simp only [decode, decodeSlot, slotWord_t, slotWord_f, slotWord_i, slotWord_c]
  rfl

end Sys2Proof

namespace Sys2Proof.Machine

/-! ## What the block does at a clock step, phase by phase -/

theorem blockStep_rst {s : State} (h : s.ports.rst = true) : blockStep s = exec .reset s := by
  simp [blockStep, selectionWord, h, decode, decodeRst]

theorem blockStep_idle {s : State} (hr : s.ports.rst = false) (hp : s.phase = .idle) :
    blockStep s = exec (if s.ports.start then .attempt s.ports.pin else .nop) s := by
  simp [blockStep, selectionWord, hr, hp, cmdOf, decode_cmdWord]

theorem blockStep_noTick {s : State} (hr : s.ports.rst = false) (ht : s.ports.tick = false)
    (hp : s.phase = .driveLow ∨ s.phase = .driveHigh ∨ s.phase = .scan) : blockStep s = .next s := by
  rcases hp with hp | hp | hp <;> simp [blockStep, selectionWord, hr, hp, ht]

theorem blockStep_driveLow {s : State} (hr : s.ports.rst = false) (ht : s.ports.tick = true)
    (hp : s.phase = .driveLow) : blockStep s = exec (if s.delay.toNat = 1 then .raise else .wait) s := by
  by_cases hd : s.delay.toNat = 1 <;> simp [blockStep, selectionWord, hr, ht, hp, seqOf, decode_seqWord, hd]

theorem blockStep_driveHigh {s : State} (hr : s.ports.rst = false) (ht : s.ports.tick = true)
    (hp : s.phase = .driveHigh) : blockStep s = exec (if s.delay.toNat = 1 then .release else .wait) s := by
  by_cases hd : s.delay.toNat = 1 <;> simp [blockStep, selectionWord, hr, ht, hp, seqOf, decode_seqWord, hd]

theorem blockStep_scan {s : State} (hr : s.ports.rst = false) (ht : s.ports.tick = true) (hp : s.phase = .scan)
    (hi : s.slot.toNat ≤ 84) (hc : s.counter.toNat ≤ 254) :
    blockStep s = exec
      (if s.ports.lineIn ≠ s.lastState then decodeTransition (decide (s.bitCount.toNat = 40)) s.slot s.counter
       else if s.counter.toNat = 254 then .tmo s.slot
       else .count s.slot s.counter) s := by
  have h1 : ¬ 85 ≤ s.slot.toNat := by omega
  have h2 : ¬ 255 ≤ s.counter.toNat := by omega
  by_cases hl : s.ports.lineIn = s.lastState
  · by_cases h4 : s.counter.toNat = 254 <;>
      simp [blockStep, selectionWord, hr, ht, hp, slotOf, decode_slotWord, h1, transitionSeen, pinRead, hl, h4]
    simp [h2]
  · simp [blockStep, selectionWord, hr, ht, hp, slotOf, decode_slotWord, h1, h2, transitionSeen, pinRead, hl]
    rfl

/-- A SLOT word that selects no row (R63, log entry 7). -/
theorem blockStep_scan_none {s : State} (hr : s.ports.rst = false) (ht : s.ports.tick = true) (hp : s.phase = .scan)
    (h : 85 ≤ s.slot.toNat ∨ 255 ≤ s.counter.toNat) : blockStep s = .fault .noOperation := by
  by_cases h1 : 85 ≤ s.slot.toNat
  · simp [blockStep, selectionWord, hr, ht, hp, slotOf, decode_slotWord, h1]
  · have h2 : 255 ≤ s.counter.toNat := by omega
    simp [blockStep, selectionWord, hr, ht, hp, slotOf, decode_slotWord, h1, h2]

theorem blockStep_validate {s : State} (hr : s.ports.rst = false) (hp : s.phase = .validate) :
    blockStep s = exec (if valid s then .commit else .reject (enoughBits s) (checksumEqual s)) s := by
  by_cases h : enoughBits s = true <;> by_cases h' : checksumEqual s = true <;>
    simp [blockStep, selectionWord, hr, hp, valOf, decode_valWord, valid, h, h']

end Sys2Proof.Machine
end

