-- ==== Sys2Proof/Laws/Step.lean ====
section
/-! SUPPORT. What one step can do, and runs. -/

namespace Sys2Proof.Machine

theorem step_of_call {s : State} {pin : PinId} (h : dueCall s = some pin) : step s = exec (.read pin) s := by
  simp [step, h]

theorem step_of_no_call {s : State} (h : dueCall s = none) : step s = blockStep (clockEdge s) := by
  simp [step, h]

/-- Everything a step that answers a next state can be: the host's call, a clock step at which nothing executes, or a
clock step that executes the operation selected. -/
theorem step_cases {s t : State} (h : step s = .next t) :
    (∃ pin, dueCall s = some pin ∧ exec (.read pin) s = .next t) ∨
    (dueCall s = none ∧ selectionWord (clockEdge s) = none ∧ t = clockEdge s) ∨
    (∃ w i, dueCall s = none ∧ selectionWord (clockEdge s) = some w ∧ decode w = .ok i ∧
      exec i (clockEdge s) = .next t) := by
  unfold step at h
  split at h
  · exact .inl ⟨_, by assumption, h⟩
  · rename_i hd
    unfold blockStep at h
    split at h
    · rename_i hw
      exact .inr (.inl ⟨hd, hw, by injection h with h; exact h.symm⟩)
    · rename_i w hw
      split at h
      · rename_i i hi
        exact .inr (.inr ⟨w, i, hd, hw, hi, h⟩)
      · cases h

/-- Everything a meaning that answers a next state does, operation by operation. -/
theorem exec_cases {i : Instr} {s t : State} (h : exec i s = .next t) :
    (i = .reset ∧ t = resetOp s) ∨
    (i = .nop ∧ t = { s with done := false }) ∨
    (∃ pin, i = .attempt pin ∧ t = { s with
      pin := pin, frame := [], bitCount := 0#6, slot := 0#7, counter := 0#8, lastState := true, timedOut := false,
      ok := false, done := false, lineOe := true, lineOut := false, delay := delayOf Config.settleTicks,
      phase := .driveLow }) ∨
    (i = .wait ∧ t = { s with delay := delayDown s.delay }) ∨
    (i = .raise ∧ t = { s with lineOut := true, delay := delayOf Config.releaseTicks, phase := .driveHigh }) ∨
    (i = .release ∧ t = { s with lineOe := false, phase := .scan }) ∨
    ((∃ a c, i = .count a c) ∧ t = { s with counter := s.counter + 1#8 }) ∨
    ((∃ a, i = .tmo a) ∧ t = { s with counter := 255#8, timedOut := true, phase := .validate }) ∨
    (((∃ a c, i = .skiph a c) ∨ (∃ a c, i = .skipm a c) ∨ (∃ a c, i = .drop a c)) ∧ t = transition s) ∨
    (∃ b, ((∃ a c, i = .shift0 a c) ∧ b = false ∨ (∃ a c, i = .shift1 a c) ∧ b = true) ∧ s.bitCount.toNat < 40 ∧
      t = transition
        { s with
          frame := Memory.write s.frame (bitAddress s) (shiftIn (Memory.read s.frame (bitAddress s)) b)
          bitCount := s.bitCount + 1#6 }) ∨
    (i = .commit ∧ t = endAttempt true { s with
      lastHumidity := BitVec.setWidth 16 (Memory.read s.frame 0)
      lastTemperature := BitVec.setWidth 16 (Memory.read s.frame 2) }) ∨
    ((∃ n e, i = .reject n e) ∧ t = endAttempt false s) ∨
    (∃ pin, i = .read pin ∧ t = { s with
      host := { call := none, reading := some { pin := pin, attempts := 0, awaiting := false }, returned := none } }) := by
  cases i
  case shift0 => have := shiftOp_next h; simp_all
  case shift1 => have := shiftOp_next h; simp_all
  case attempt pin => exact .inr (.inr (.inl ⟨pin, rfl, by injection h with h; exact h.symm⟩))
  all_goals
    injection h with h
    subst h
    simp
  all_goals rfl

/-- Only a `READ` call puts `host.call` aside; nothing makes one. -/
theorem call_of_step {s t : State} (h : step s = .next t) (hc : s.host.call = none) : t.host.call = none := by
  have he : (clockEdge s).host.call = none := by rw [clockEdge_call, hc]
  rcases step_cases h with ⟨pin, hd, -⟩ | ⟨-, -, rfl⟩ | ⟨w, i, -, -, -, hx⟩
  · rw [dueCall_of_call_none hc] at hd
    cases hd
  · exact he
  · cases i <;> simp only [exec, execReset, execNop, execAttempt, execWait, execRaise, execRelease, execCount, execTmo,
      execSkiph, execSkipm, execDrop, execCommit, execReject, execRead, execShift0, execShift1,
      Host.Outcome.next.injEq] at hx
    case shift0 => obtain ⟨-, rfl⟩ := shiftOp_next hx; simpa using he
    case shift1 => obtain ⟨-, rfl⟩ := shiftOp_next hx; simpa using he
    all_goals subst hx
    all_goals first | exact he | rfl

/-! ## Runs -/

/-- One step of a run of any machine of the host's interface. -/
theorem run_succ (M : Host.Core) (k : Nat) (s t : M.State) :
    M.run (k + 1) s = .next t ↔ ∃ u, M.step s = .next u ∧ M.run k u = .next t := by
  rw [Host.Core.run]
  cases M.step s with
  | next u => simp
  | fault r => simp
  | refused r => simp

@[simp] theorem reaches_zero (s t : State) : Reaches 0 s t ↔ s = t := by
  have h0 : Sys2Proof.core.run 0 s = .next s := rfl
  unfold Reaches
  rw [h0]
  exact ⟨fun h => by injection h, fun h => by rw [h]⟩

/-- A run is a step and then a run. -/
theorem reaches_succ (k : Nat) (s t : State) : Reaches (k + 1) s t ↔ ∃ u, step s = .next u ∧ Reaches k u t :=
  run_succ Sys2Proof.core k s t

/-- Runs one after the other. -/
theorem reaches_add {j k : Nat} {s u t : State} (h : Reaches j s u) (h' : Reaches k u t) : Reaches (j + k) s t := by
  induction j generalizing s with
  | zero =>
    rw [reaches_zero] at h
    subst h
    simpa using h'
  | succ j ih =>
    obtain ⟨v, hv, hr⟩ := (reaches_succ j s u).1 h
    rw [Nat.succ_add]
    exact (reaches_succ _ s t).2 ⟨v, hv, ih hr⟩

/-- A run has one end. -/
theorem reaches_unique {k : Nat} {s t u : State} (h : Reaches k s t) (h' : Reaches k s u) : t = u := by
  unfold Reaches at h h'
  rw [h] at h'
  injection h'

/-! ## Ticks, samples, resets of a list of port values -/

@[simp] theorem ticks_nil : ticks [] = 0 := rfl

@[simp] theorem ticks_cons (p : PortsIn) (q : List PortsIn) : ticks (p :: q) = (if p.tick then 1 else 0) + ticks q := by
  unfold ticks
  by_cases h : p.tick = true <;> simp [h, Nat.add_comm]

@[simp] theorem samples_nil : samples [] = [] := rfl

@[simp] theorem samples_cons (p : PortsIn) (q : List PortsIn) :
    samples (p :: q) = if p.tick then p.lineIn :: samples q else samples q := by
  unfold samples
  by_cases h : p.tick = true <;> simp [h]

@[simp] theorem noReset_cons (p : PortsIn) (q : List PortsIn) : NoReset (p :: q) ↔ p.rst = false ∧ NoReset q := by
  simp [NoReset]

theorem noReset_nil : NoReset [] := by simp [NoReset]

end Sys2Proof.Machine
end

