-- ==== Sys2Proof/Laws/Loader.lean ====
section
/-! SUPPORT. Putting a selection word in place: the state forms exactly that word at its next step (log entry 13). -/

namespace Sys2Proof.Machine

theorem delayFor_bit (d : BitVec Config.delayWidth) (l : Bool) : decide ((delayFor d l).toNat = 1) = l := by
  unfold delayFor
  cases l
  · rw [if_neg (by decide)]
    split
    · exact decide_eq_false (by rw [BitVec.toNat_zero]; decide)
    · exact decide_eq_false (by assumption)
  · rfl

theorem bitCountFor_enough (b : BitVec 6) (e : Bool) : decide (40 ≤ (bitCountFor b e).toNat) = e := by
  unfold bitCountFor Config.frameBits
  cases e
  · rw [if_neg (by decide)]
    split
    · rfl
    · exact decide_eq_false (by omega)
  · rfl

theorem bitCountFor_full (b : BitVec 6) (f : Bool) : decide ((bitCountFor b f).toNat = 40) = f := by
  unfold bitCountFor Config.frameBits
  cases f
  · rw [if_neg (by decide)]
    split
    · rfl
    · exact decide_eq_false (by omega)
  · rfl

/-- The checksum byte is no part of the sum. -/
theorem sum8_write_checksum (m : Memory) (v : Byte) : sum8 (Memory.write m 4 v) = sum8 m := by
  simp [sum8, Memory.read_write]

theorem checksumFor_equal (m : Memory) (e : Bool) : decide (checksumFor m e = sum8 m) = e := by
  unfold checksumFor
  cases e
  · rw [if_neg (by decide)]
    split
    · refine decide_eq_false fun h => ?_
      have := congrArg BitVec.toNat h
      rw [BitVec.toNat_add] at this
      have := (sum8 m).isLt
      simp at *
    · exact decide_eq_false (by assumption)
  · exact decide_eq_true rfl

theorem seqWord_fields (w : BitVec 2) : seqWord (w.getLsbD 1) (w.getLsbD 0) = w := by
  revert w
  decide

theorem valWord_fields (w : BitVec 2) : valWord (w.getLsbD 1) (w.getLsbD 0) = w := by
  revert w
  decide

/-- The state made for a selection word other than the host's `READ` and an unasserted reset forms that word. -/
theorem selectionWord_selecting (s : State) {sw : SelWord} (hp : ∀ pin, sw ≠ .pseudo pin) (hr : sw ≠ .rst 0#1) :
    selectionWord (clockEdge (s.selecting sw)) = some sw := by
  cases sw with
  | rst w =>
    have hw : w = 1#1 := by
      have h : w = 0#1 ∨ w = 1#1 := by clear hp hr; revert w; decide
      exact h.resolve_left fun h => hr (by rw [h])
    subst hw
    rfl
  | cmd w => exact congrArg (fun x => some (SelWord.cmd x)) (cmdWord_fields w)
  | seq w =>
    have hd := delayFor_bit s.delay (w.getLsbD 0)
    have hw := seqWord_fields w
    generalize hq : s.selecting (.seq w) = u
    have h1 : selectionWord (clockEdge u) = some (.seq (seqOf (clockEdge u))) := by
      subst hq
      cases h : w.getLsbD 1 <;>
        simp [-BitVec.getLsbD_eq_getElem, selectionWord, State.selecting, h, clockEdge, comingPorts, hostMove, State.withPorts, quietPorts]
    rw [h1]
    refine congrArg (fun x => some (SelWord.seq x)) (Eq.trans ?_ hw)
    subst hq
    unfold seqOf
    refine congr (congrArg seqWord ?_) hd
    cases h : w.getLsbD 1 <;> simp [-BitVec.getLsbD_eq_getElem, State.selecting, h, State.withPorts]
  | slot w =>
    have hf := bitCountFor_full s.bitCount (w.getLsbD 15)
    refine congrArg (fun x => some (SelWord.slot x)) (Eq.trans ?_ (slotWord_fields w))
    have ht : transitionSeen (clockEdge (s.selecting (.slot w))) = w.getLsbD 16 := by
      unfold transitionSeen pinRead
      rw [clockEdge_lineIn, clockEdge_lastState]
      cases h : w.getLsbD 16 <;> cases h' : s.lastState <;>
        simp [-BitVec.getLsbD_eq_getElem, State.selecting, State.withPorts, comingPorts, h, h']
    unfold slotOf
    rw [ht, full_eq]
    exact congrArg (fun f => slotWord (w.getLsbD 16) f (w.extractLsb' 8 7) (w.extractLsb' 0 8)) hf
  | val w =>
    have hn := bitCountFor_enough s.bitCount (w.getLsbD 1)
    have hc := checksumFor_equal s.frame (w.getLsbD 0)
    refine congrArg (fun x => some (SelWord.val x)) (Eq.trans ?_ (valWord_fields w))
    refine congr (congrArg valWord hn) ?_
    change decide (Memory.read (Memory.write s.frame 4 _) 4 = sum8 (Memory.write s.frame 4 _)) = _
    rw [sum8_write_checksum, Memory.read_write_same]
    exact hc
  | pseudo pin => exact absurd rfl (hp pin)

/-- And the step that forms it is a clock step. -/
theorem dueCall_selecting (s : State) {sw : SelWord} (hp : ∀ pin, sw ≠ .pseudo pin) :
    dueCall (s.selecting sw) = none := by
  cases sw with
  | pseudo pin => exact absurd rfl (hp pin)
  | _ => rfl

end Sys2Proof.Machine
end

