-- ==== Sys2Proof/Laws/WellFormed.lean ====
section
/-! SUPPORT. The constraints of each row as arithmetic (30_encoding.md R63, R78). -/

namespace Sys2Proof

theorem inRange_iff (lo hi n : Nat) : inRange lo hi n = true ↔ lo ≤ n ∧ n ≤ hi := by simp [inRange]

theorem dataSlotField_iff (i : BitVec 7) :
    dataSlotField i = true ↔ 4 ≤ i.toNat ∧ i.toNat ≤ 84 ∧ i.toNat % 2 = 0 := by
  unfold dataSlotField
  rw [Bool.and_eq_true, inRange_iff, decide_eq_true_iff, and_assoc]
  exact Iff.rfl

theorem wellFormed_count (i : BitVec 7) (c : BitVec 8) :
    Instr.wellFormed (.count i c) = true ↔ i.toNat ≤ 84 ∧ c.toNat ≤ 253 := by
  unfold Instr.wellFormed
  rw [Bool.and_eq_true, inRange_iff, inRange_iff]
  unfold Config.maxTimings Config.timeoutCount
  omega

theorem wellFormed_tmo (i : BitVec 7) : Instr.wellFormed (.tmo i) = true ↔ i.toNat ≤ 84 := by
  unfold Instr.wellFormed
  rw [inRange_iff]
  unfold Config.maxTimings
  omega

theorem wellFormed_skiph (i : BitVec 7) (c : BitVec 8) :
    Instr.wellFormed (.skiph i c) = true ↔ i.toNat ≤ 3 ∧ c.toNat ≤ 254 := by
  unfold Instr.wellFormed
  rw [Bool.and_eq_true, inRange_iff, inRange_iff]
  unfold Config.skipSlots Config.timeoutCount
  omega

theorem wellFormed_skipm (i : BitVec 7) (c : BitVec 8) :
    Instr.wellFormed (.skipm i c) = true ↔
      5 ≤ i.toNat ∧ i.toNat ≤ 83 ∧ i.toNat % 2 = 1 ∧ c.toNat ≤ 254 := by
  unfold Instr.wellFormed
  rw [Bool.and_eq_true, Bool.and_eq_true, inRange_iff, inRange_iff, decide_eq_true_iff]
  unfold Config.skipSlots Config.timeoutCount Config.maxTimings Config.dataParity
  omega

theorem wellFormed_shift0 (i : BitVec 7) (c : BitVec 8) :
    Instr.wellFormed (.shift0 i c) = true ↔
      4 ≤ i.toNat ∧ i.toNat ≤ 84 ∧ i.toNat % 2 = 0 ∧ c.toNat ≤ 16 := by
  unfold Instr.wellFormed
  rw [Bool.and_eq_true, dataSlotField_iff, inRange_iff]
  unfold Config.bitThreshold
  omega

theorem wellFormed_shift1 (i : BitVec 7) (c : BitVec 8) :
    Instr.wellFormed (.shift1 i c) = true ↔
      4 ≤ i.toNat ∧ i.toNat ≤ 84 ∧ i.toNat % 2 = 0 ∧ 17 ≤ c.toNat ∧ c.toNat ≤ 254 := by
  unfold Instr.wellFormed
  rw [Bool.and_eq_true, dataSlotField_iff, inRange_iff]
  unfold Config.bitThreshold Config.timeoutCount
  omega

theorem wellFormed_drop (i : BitVec 7) (c : BitVec 8) :
    Instr.wellFormed (.drop i c) = true ↔
      4 ≤ i.toNat ∧ i.toNat ≤ 84 ∧ i.toNat % 2 = 0 ∧ c.toNat ≤ 254 := by
  unfold Instr.wellFormed
  rw [Bool.and_eq_true, dataSlotField_iff, inRange_iff]
  unfold Config.timeoutCount
  omega

theorem wellFormed_reject (n s : Bool) : Instr.wellFormed (.reject n s) = true ↔ ¬ (n = true ∧ s = true) := by
  cases n <;> cases s <;> simp [Instr.wellFormed]

end Sys2Proof
end

