-- ==== Sys2Proof/Laws/PerInstr.lean ====
section
/-! SUPPORT. Statements made for every operation, one lemma per constructor. -/

namespace Sys2Proof.Laws.EncodeMatchesRow

/-- The word the encoder writes for a well-formed operation has the format of the operation's row of the table and meets
the row's fixed bits, ranges, parity and exclusions (30_encoding.md R78). -/
def Statement (i : Instr) : Prop :=
  i.wellFormed = true → ∃ r ∈ opcodeTable, r.mnemonic = i.mnemonic ∧ r.format = (encode i).format
    ∧ r.accepts (encode i).value = true

/-- A row of the table, by its place, is the one that shows a statement. -/
theorem of_row {i : Instr} (n : Nat) {r : Row} (hr : opcodeTable[n]? = some r) (hm : r.mnemonic = i.mnemonic)
    (hf : r.format = (encode i).format) (ha : i.wellFormed = true → r.accepts (encode i).value = true) : Statement i :=
  fun hw => ⟨r, List.mem_of_getElem? hr, hm, hf, ha hw⟩

/-- The fields of a SLOT word as numbers. -/
theorem slot_bits (t f : Bool) (i : BitVec 7) (c : BitVec 8) :
    bitsOf 16 16 (slotWord t f i c).toNat = t.toNat
      ∧ bitsOf 16 15 (slotWord t f i c).toNat = 2 * t.toNat + f.toNat
      ∧ bitsOf 14 8 (slotWord t f i c).toNat = i.toNat ∧ bitsOf 7 0 (slotWord t f i c).toNat = c.toNat := by
  have hi := i.isLt
  have hc := c.isLt
  have ht := t.toNat_lt
  have hf := f.toNat_lt
  rw [slotWord_toNat]
  unfold bitsOf
  omega

theorem reset : Statement .reset := of_row 0 rfl rfl rfl (fun _ => rfl)

theorem nop : Statement .nop := of_row 1 rfl rfl rfl (fun _ => rfl)

theorem attempt (pin : PinId) : Statement (.attempt pin) := by
  refine of_row 2 rfl rfl rfl (fun _ => ?_)
  have hp := pin.isLt
  simp [encode, SelWord.value, cmdWord_toNat, Row.accepts, FieldRow.accepts, bitsOf, inRange]
  omega

theorem wait : Statement .wait := of_row 3 rfl rfl rfl (fun _ => rfl)

theorem raise : Statement .raise := of_row 4 rfl rfl rfl (fun _ => rfl)

theorem release : Statement .release := of_row 5 rfl rfl rfl (fun _ => rfl)

theorem count (i : BitVec 7) (c : BitVec 8) : Statement (.count i c) := by
  refine of_row 6 rfl rfl rfl (fun h => ?_)
  rw [wellFormed_count] at h
  simp [encode, SelWord.value, Row.accepts, FieldRow.accepts, slot_bits, inRange, h]

theorem tmo (i : BitVec 7) : Statement (.tmo i) := by
  refine of_row 7 rfl rfl rfl (fun h => ?_)
  rw [wellFormed_tmo] at h
  simp [encode, SelWord.value, Row.accepts, FieldRow.accepts, slot_bits, inRange, h]

theorem skiph (i : BitVec 7) (c : BitVec 8) : Statement (.skiph i c) := by
  refine of_row 8 rfl rfl rfl (fun h => ?_)
  rw [wellFormed_skiph] at h
  simp [encode, SelWord.value, Row.accepts, FieldRow.accepts, slot_bits, inRange, h]

theorem skipm (i : BitVec 7) (c : BitVec 8) : Statement (.skipm i c) := by
  refine of_row 9 rfl rfl rfl (fun h => ?_)
  rw [wellFormed_skipm] at h
  simp [encode, SelWord.value, Row.accepts, FieldRow.accepts, slot_bits, inRange, h]

theorem shift0 (i : BitVec 7) (c : BitVec 8) : Statement (.shift0 i c) := by
  refine of_row 10 rfl rfl rfl (fun h => ?_)
  rw [wellFormed_shift0] at h
  simp [encode, SelWord.value, Row.accepts, FieldRow.accepts, slot_bits, inRange, h]

theorem shift1 (i : BitVec 7) (c : BitVec 8) : Statement (.shift1 i c) := by
  refine of_row 11 rfl rfl rfl (fun h => ?_)
  rw [wellFormed_shift1] at h
  simp [encode, SelWord.value, Row.accepts, FieldRow.accepts, slot_bits, inRange, h]

theorem drop (i : BitVec 7) (c : BitVec 8) : Statement (.drop i c) := by
  refine of_row 12 rfl rfl rfl (fun h => ?_)
  rw [wellFormed_drop] at h
  simp [encode, SelWord.value, Row.accepts, FieldRow.accepts, slot_bits, inRange, h]

theorem commit : Statement .commit := of_row 13 rfl rfl rfl (fun _ => rfl)

theorem reject (n s : Bool) : Statement (.reject n s) := by
  refine of_row 14 rfl rfl rfl (fun h => ?_)
  revert n s
  decide

theorem read (pin : PinId) : Statement (.read pin) := by
  refine of_row 15 rfl rfl rfl (fun _ => ?_)
  have hp := pin.isLt
  simp [encode, SelWord.value, Row.accepts, FieldRow.accepts, bitsOf, inRange]
  omega

end Sys2Proof.Laws.EncodeMatchesRow
end

