-- ==== Sys2Proof/Tests/Slice0.lean ====
section
/-! SUPPORT. The model's own tests: ill-formed terms refused, words written out from the spec's encodings, single steps of
95_test_vectors.md, and for every statement with hypotheses a concrete state that meets them. -/

namespace Sys2Proof.Tests

open Sys2Proof.Machine

/-! ## WellFormed: an ill-formed term for each check (30_encoding.md R63, R64, R78) -/

theorem test_wf_count_slot : Instr.wellFormed (.count 85#7 0#8) = false := by decide
theorem test_wf_count_counter : Instr.wellFormed (.count 0#7 254#8) = false := by decide
theorem test_wf_tmo_slot : Instr.wellFormed (.tmo 85#7) = false := by decide
theorem test_wf_skiph_slot : Instr.wellFormed (.skiph 4#7 0#8) = false := by decide
theorem test_wf_skiph_counter : Instr.wellFormed (.skiph 3#7 255#8) = false := by decide
theorem test_wf_skipm_low : Instr.wellFormed (.skipm 3#7 0#8) = false := by decide
theorem test_wf_skipm_high : Instr.wellFormed (.skipm 85#7 0#8) = false := by decide
theorem test_wf_skipm_parity : Instr.wellFormed (.skipm 6#7 0#8) = false := by decide
theorem test_wf_skipm_counter : Instr.wellFormed (.skipm 5#7 255#8) = false := by decide
theorem test_wf_shift0_low : Instr.wellFormed (.shift0 2#7 0#8) = false := by decide
theorem test_wf_shift0_high : Instr.wellFormed (.shift0 86#7 0#8) = false := by decide
theorem test_wf_shift0_parity : Instr.wellFormed (.shift0 5#7 0#8) = false := by decide
theorem test_wf_shift0_counter : Instr.wellFormed (.shift0 4#7 17#8) = false := by decide
theorem test_wf_shift1_slot : Instr.wellFormed (.shift1 5#7 20#8) = false := by decide
theorem test_wf_shift1_low : Instr.wellFormed (.shift1 4#7 16#8) = false := by decide
theorem test_wf_shift1_high : Instr.wellFormed (.shift1 4#7 255#8) = false := by decide
theorem test_wf_drop_slot : Instr.wellFormed (.drop 83#7 0#8) = false := by decide
theorem test_wf_drop_counter : Instr.wellFormed (.drop 84#7 255#8) = false := by decide
theorem test_wf_reject : Instr.wellFormed (.reject true true) = false := by decide

/-! ## Decoding: every constructor, its word in bits from the row's pattern (30_encoding.md R60 to R64) -/

theorem test_decode_reset : decode (.rst 0b1#1) = .ok .reset := by decide
theorem test_decode_nop : decode (.cmd 0b011111111#9) = .ok .nop := by decide
theorem test_decode_attempt : decode (.cmd 0b110000001#9) = .ok (.attempt 129#8) := by decide
theorem test_decode_wait : decode (.seq 0b10#2) = .ok .wait := by decide
theorem test_decode_raise : decode (.seq 0b01#2) = .ok .raise := by decide
theorem test_decode_release : decode (.seq 0b11#2) = .ok .release := by decide
-- t f i(7) c(8); a handshake slot's SLOT word with t = 0 still counts
theorem test_decode_count : decode (.slot 0b01000000111111101#17) = .ok (.count 1#7 253#8) := by decide
theorem test_decode_tmo : decode (.slot 0b00000010011111110#17) = .ok (.tmo 4#7) := by decide
theorem test_decode_skiph : decode (.slot 0b11000001111111110#17) = .ok (.skiph 3#7 254#8) := by decide
theorem test_decode_skipm : decode (.slot 0b11101001100000000#17) = .ok (.skipm 83#7 0#8) := by decide
theorem test_decode_shift0 : decode (.slot 0b10101010000010000#17) = .ok (.shift0 84#7 16#8) := by decide
theorem test_decode_shift1 : decode (.slot 0b10000010011111110#17) = .ok (.shift1 4#7 254#8) := by decide
theorem test_decode_drop : decode (.slot 0b11000010000010001#17) = .ok (.drop 4#7 17#8) := by decide
theorem test_decode_commit : decode (.val 0b11#2) = .ok .commit := by decide
theorem test_decode_reject : decode (.val 0b01#2) = .ok (.reject false true) := by decide
theorem test_decode_read : decode (.pseudo 7#8) = .ok (.read 7#8) := by decide

-- words that select nothing (R61, R63)
theorem test_decode_no_reset : decode (.rst 0b0#1) = .error .resetNotAsserted := by decide
theorem test_decode_slot_85 : decode (.slot 0b00101010100000000#17) = .error .slotBeyondScan := by decide
theorem test_decode_count_255 : decode (.slot 0b10000010011111111#17) = .error .countSentinel := by decide

-- the table's row pattern and the host's numbering (log entry 12)
theorem test_row_of_shift0 : rowsSelecting (.slot 0x10410#17) = ["SHIFT0"] := by decide
theorem test_row_of_reject : rowsSelecting (.val 0b10#2) = ["REJECT"] := by decide
theorem test_table_word_attempt : decodeTableWord 16 0x107 = some (.attempt 7#8) := by decide
theorem test_table_word_shift1 : decodeTableWord 24 0x10411 = some (.shift1 4#7 17#8) := by decide
theorem test_table_word_drop : decodeTableWord 24 0x1D409 = some (.drop 84#7 9#8) := by decide
theorem test_table_word_release : decodeTableWord 8 0x3 = some .release := by decide

/-! ## Helpers -/

/-- The next state, where there is one. -/
def nextOf : Answer → Option State
  | .next t => some t
  | _ => none

/-- The fault, where there is one. -/
def faultOf : Answer → Option Fault
  | .fault r => some r
  | _ => none

/-- Port values with a given `tick` and level. -/
def tickWith (l : Level) : PortsIn := { rst := false, tick := true, start := false, pin := 0#8, lineIn := l }

/-- Port values of a command. -/
def command (pin : PinId) : PortsIn := { rst := false, tick := false, start := true, pin := pin, lineIn := true }

/-- Port values of a reset. -/
def resetPorts : PortsIn := { rst := true, tick := true, start := true, pin := 9#8, lineIn := true }

/-- One clock step with given port values. -/
def stepOn (s : State) (p : PortsIn) : Option State := nextOf (step { s with script := [p] })

/-- A state in SCAN, of the columns of 95_test_vectors.md section 2.3. -/
def scanAt (i : BitVec 7) (c : BitVec 8) (l : Level) (bits : BitVec 6) (frame : Memory) : State :=
  { State.reset with phase := .scan, slot := i, counter := c, lastState := l, bitCount := bits, frame := frame }

/-- A state in VALIDATE, of the columns of 95_test_vectors.md section 2.4. -/
def validateAt (bits : BitVec 6) (frame : Memory) (h t : Result) : State :=
  { State.reset with phase := .validate, bitCount := bits, frame := frame, lastHumidity := h, lastTemperature := t }

/-- `PHASE`, `SLOT`, `COUNTER`, `LASTSTATE`, `BITCOUNT`: the "After" column of section 2.3. -/
def scanView (t : State) : Phase × Nat × Nat × Level × Nat :=
  (t.phase, t.slot.toNat, t.counter.toNat, t.lastState, t.bitCount.toNat)

/-- `FRAME[0]` to `FRAME[4]`. -/
def bytes (t : State) : List Nat :=
  [(Memory.read t.frame 0).toNat, (Memory.read t.frame 1).toNat, (Memory.read t.frame 2).toNat,
    (Memory.read t.frame 3).toNat, (Memory.read t.frame 4).toNat]

/-- `PHASE`, `OK`, `DONE`, the results: the "After" column of section 2.4. -/
def resultView (t : State) : Phase × Bool × Bool × Int × Int :=
  (t.phase, t.ok, t.done, t.lastHumidity.toInt, t.lastTemperature.toInt)

/-! ## Single steps of 95_test_vectors.md sections 2.2 to 2.4 -/

-- T1
theorem test_reset :
    (stepOn (scanAt 10#7 3#8 false 17#6 [(0, 0x2D#8)]) resetPorts).map resultView
      = some (.idle, false, false, -9999, -9999) := by decide

theorem test_reset_rest :
    (stepOn (scanAt 10#7 3#8 false 17#6 [(0, 0x2D#8)]) resetPorts).map
      (fun t => (scanView t, bytes t, t.lineOe, t.lineOut))
      = some ((.idle, 0, 0, true, 0), [0, 0, 0, 0, 0], false, true) := by decide

-- T2
theorem test_nop :
    (stepOn { State.reset with done := true, ok := true, lastHumidity := 45#16, lastTemperature := 23#16 }
      { quietPorts with pin := 0xAB#8 }).map resultView = some (.idle, true, false, 45, 23) := by decide

-- T3
/-- The state before T3. -/
def afterSuccess : State :=
  { State.reset with
    done := true, ok := true, lastHumidity := 45#16, lastTemperature := 23#16, bitCount := 40#6, slot := 84#7,
    counter := 255#8, timedOut := true, frame := [(0, 0x2D#8), (2, 0x17#8), (4, 0x44#8)] }

theorem test_attempt :
    (stepOn afterSuccess (command 7#8)).map resultView = some (.driveLow, false, false, 45, 23) := by decide

theorem test_attempt_wire :
    (stepOn afterSuccess (command 7#8)).map
      (fun t => (scanView t, bytes t, t.pin, t.timedOut, t.lineOe, t.lineOut, t.delay))
      = some ((.driveLow, 0, 0, true, 0), [0, 0, 0, 0, 0], 7#8, false, true, false, delayOf Config.settleTicks) := rfl

-- T5, T9: where `DELAY_W` holds the vector's `DELAY`
theorem test_wait_low (h : 2 < 2 ^ Config.delayWidth) :
    (stepOn { State.reset with phase := .driveLow, lineOe := true, lineOut := false, delay := BitVec.ofNatLT 2 h }
      (tickWith true)).map (fun t => (t.phase, t.delay.toNat, t.lineOe, t.lineOut)) = some (.driveLow, 1, true, false) := by
  have hd : (delayDown (BitVec.ofNatLT 2 h)).toNat = 1 := delayDown_of_ne_zero (Nat.succ_ne_zero 1)
  rw [stepOn, step_of_no_call rfl, blockStep_driveLow rfl rfl rfl, if_neg (by simp)]
  exact congrArg (fun n => some (Phase.driveLow, n, true, false)) hd

theorem test_wait_high (h : 3 < 2 ^ Config.delayWidth) :
    (stepOn { State.reset with phase := .driveHigh, lineOe := true, delay := BitVec.ofNatLT 3 h }
      (tickWith true)).map (fun t => (t.phase, t.delay.toNat, t.lineOe, t.lineOut)) = some (.driveHigh, 2, true, true) := by
  have hd : (delayDown (BitVec.ofNatLT 3 h)).toNat = 2 := delayDown_of_ne_zero (Nat.succ_ne_zero 2)
  rw [stepOn, step_of_no_call rfl, blockStep_driveHigh rfl rfl rfl, if_neg (by simp)]
  exact congrArg (fun n => some (Phase.driveHigh, n, true, true)) hd

-- T7
theorem test_raise :
    (stepOn { State.reset with phase := .driveLow, lineOe := true, lineOut := false, delay := delayOne } (tickWith true)).map
      (fun t => (t.phase, t.lineOe, t.lineOut)) = some (.driveHigh, true, true) := by decide

theorem test_raise_delay :
    (stepOn { State.reset with phase := .driveLow, delay := delayOne } (tickWith true)).map State.delay
      = some (delayOf Config.releaseTicks) := rfl

-- T8
theorem test_release :
    (stepOn { State.reset with phase := .driveHigh, lineOe := true, delay := delayOne } (tickWith false)).map
      (fun t => (scanView t, t.lineOe, t.lineOut, t.delay.toNat)) = some ((.scan, 0, 0, true, 0), false, true, 1) := by decide

-- T12, T29
theorem test_count :
    (stepOn (scanAt 4#7 253#8 true 0#6 []) (tickWith true)).map scanView = some (.scan, 4, 254, true, 0) := by decide

theorem test_count_last_slot :
    (stepOn (scanAt 84#7 253#8 true 40#6 []) (tickWith true)).map scanView = some (.scan, 84, 254, true, 40) := by decide

-- T12b
theorem test_tmo :
    (stepOn (scanAt 4#7 254#8 true 0#6 []) (tickWith true)).map (fun t => (scanView t, t.timedOut, bytes t))
      = some ((.validate, 4, 255, true, 0), true, [0, 0, 0, 0, 0]) := by decide

-- T24
theorem test_skiph :
    (stepOn (scanAt 3#7 254#8 false 0#6 []) (tickWith true)).map scanView = some (.scan, 4, 0, true, 0) := by decide

-- T26
theorem test_skipm :
    (stepOn (scanAt 83#7 19#8 false 40#6 []) (tickWith true)).map scanView = some (.scan, 84, 0, true, 40) := by decide

-- T13, T20
theorem test_shift0 :
    (stepOn (scanAt 4#7 16#8 true 0#6 []) (tickWith false)).map (fun t => (scanView t, bytes t))
      = some ((.scan, 5, 0, false, 1), [0, 0, 0, 0, 0]) := by decide

theorem test_shift0_last :
    (stepOn (scanAt 82#7 9#8 true 39#6 [(4, 0x22#8)]) (tickWith false)).map (fun t => (scanView t, bytes t))
      = some ((.scan, 83, 0, false, 40), [0, 0, 0, 0, 0x44]) := by decide

-- T16, T17
theorem test_shift1_longest :
    (stepOn (scanAt 4#7 254#8 true 0#6 []) (tickWith false)).map (fun t => (scanView t, bytes t))
      = some ((.scan, 5, 0, false, 1), [1, 0, 0, 0, 0]) := by decide

theorem test_shift1_completes_byte :
    (stepOn (scanAt 18#7 29#8 true 7#6 [(0, 0x16#8)]) (tickWith false)).map (fun t => (scanView t, bytes t))
      = some ((.scan, 19, 0, false, 8), [0x2D, 0, 0, 0, 0]) := by decide

-- T28
theorem test_drop :
    (stepOn (scanAt 84#7 254#8 true 40#6 [(0, 0x2D#8), (4, 0x2D#8)]) (tickWith false)).map
      (fun t => (scanView t, bytes t, t.timedOut))
      = some ((.validate, 85, 0, false, 40), [0x2D, 0, 0, 0, 0x2D], false) := by decide

-- T36, T35
theorem test_commit :
    (stepOn (validateAt 40#6 [(0, 0xC8#8), (1, 0x64#8), (2, 0xFF#8), (3, 0x01#8), (4, 0x2C#8)] 0#16 0#16)
      quietPorts).map resultView = some (.idle, true, true, 200, 255) := by decide

theorem test_commit_zero :
    (stepOn (validateAt 40#6 [] 45#16 23#16) quietPorts).map resultView = some (.idle, true, true, 0, 0) := by decide

-- T31, T34
theorem test_reject_checksum :
    (stepOn (validateAt 40#6 [(0, 0x2D#8), (2, 0x17#8), (4, 0x45#8)] 11#16 22#16) quietPorts).map resultView
      = some (.idle, false, true, 11, 22) := by decide

theorem test_reject_bits :
    (stepOn (validateAt 39#6 [(0, 1#8), (1, 1#8), (2, 1#8), (3, 1#8), (4, 4#8)] 45#16 23#16) quietPorts).map resultView
      = some (.idle, false, true, 45, 23) := by decide

-- 45_retry_read.md R118: the call, and the first step of the host in IDLE
theorem test_read :
    (nextOf (exec (.read 7#8) State.reset)).map (fun t => t.host.reading)
      = some (some { pin := 7#8, attempts := 0, awaiting := false }) := by decide

theorem test_read_gives_attempt :
    (stepOn { State.reset with
      host := { call := none, reading := some { pin := 7#8, attempts := 0, awaiting := false }, returned := none } }
      quietPorts).map (fun t => (t.phase, t.pin, t.host.reading))
      = some (.driveLow, 7#8, some { pin := 7#8, attempts := 0, awaiting := true }) := by decide

-- T4, T6: nothing executes
theorem test_busy_command :
    (stepOn (scanAt 10#7 0#8 true 3#6 []) (command 9#8)).map (fun t => (scanView t, t.pin))
      = some ((.scan, 10, 0, true, 3), 0#8) := by decide

-- the stops (log entries 6 and 7)
theorem test_no_operation :
    faultOf (step { scanAt 85#7 0#8 true 0#6 [] with script := [tickWith true] }) = some .noOperation := by decide

theorem test_no_frame_byte :
    faultOf (exec (.shift1 84#7 20#8) (scanAt 84#7 20#8 true 40#6 [])) = some (.noFrameByte 5) := by decide

/-! ## A word put in place is the next operation, right after reset (log entry 13) -/

theorem test_fetch_shift1 :
    (nextOf (step (State.reset.withFetchWord 24 0x10411))).map (fun t => (scanView t, bytes t))
      = some ((.scan, 5, 0, false, 1), [1, 0, 0, 0, 0]) := by decide

theorem test_fetch_drop :
    (nextOf (step (State.reset.withFetchWord 24 0x1D409))).map scanView
      = some (.validate, 85, 0, false, 40) := by decide

theorem test_fetch_attempt :
    (nextOf (step (State.reset.withFetchWord 16 0x107))).map (fun t => (t.phase, t.pin)) = some (.driveLow, 7#8) := by
  decide

theorem test_fetch_reset :
    (nextOf (step ({ State.reset with bitCount := 9#6 }.withFetchWord 8 1))).map State.bitCount = some 0#6 := by decide

theorem test_fetch_release :
    (nextOf (step (State.reset.withFetchWord 8 3))).map State.phase = some .scan := by decide

theorem test_fetch_read :
    (nextOf (step (State.reset.withFetchWord 0 7))).map (fun t => t.host.reading)
      = some (some { pin := 7#8, attempts := 0, awaiting := false }) := by decide

/-! ## Concrete states that meet the hypotheses of the statements -/

/-- A state with given port values at its next clock step. -/
def given (s : State) (p : PortsIn) : State := { s with script := [p] }

/-- A state in a driven phase. -/
def driven (ph : Phase) (d : BitVec Config.delayWidth) : State :=
  { State.reset with phase := ph, lineOe := true, delay := d }

/-- A state with a `READ` in progress. -/
def reading (s : State) (n : Nat) (awaiting : Bool) : State :=
  { s with host := { call := none, reading := some { pin := 7#8, attempts := n, awaiting := awaiting }, returned := none } }

/-- Port values with nothing asserted but `tick` = 0. -/
def still : PortsIn := tickWith true |> fun p => { p with tick := false }

theorem test_witness_ResetFromAnyState :
    dueCall (given (scanAt 4#7 9#8 true 0#6 []) resetPorts) = none
      ∧ (clockEdge (given (scanAt 4#7 9#8 true 0#6 []) resetPorts)).ports.rst = true := by decide

theorem test_witness_ResetEndsTheHostsRead :
    ∃ s t, dueCall s = none ∧ (clockEdge s).ports.rst = true ∧ step s = .next t ∧ s.host ≠ HostState.quiet :=
  ⟨given (reading (scanAt 4#7 9#8 true 0#6 []) 3 true) resetPorts, _, rfl, rfl, rfl, by decide⟩

theorem test_witness_AttemptStartsOneRead :
    dueCall (given State.reset (command 7#8)) = none ∧ (clockEdge (given State.reset (command 7#8))).ports.rst = false
      ∧ (given State.reset (command 7#8)).phase = .idle
      ∧ (clockEdge (given State.reset (command 7#8))).ports.start = true := by decide

theorem test_witness_NopOnlyEndsTheDonePulse :
    dueCall (given State.reset still) = none ∧ (clockEdge (given State.reset still)).ports.rst = false
      ∧ (given State.reset still).phase = .idle ∧ (clockEdge (given State.reset still)).ports.start = false := by decide

theorem test_witness_AttemptForgetsThePast :
    ∃ s s' : State, s' ≠ s ∧ s'.lastHumidity = s.lastHumidity ∧ s'.lastTemperature = s.lastTemperature
      ∧ s'.ports = s.ports ∧ s'.script = s.script ∧ s'.edge = s.edge ∧ s'.host = s.host :=
  ⟨State.reset, scanAt 84#7 254#8 false 40#6 [(0, 0x2D#8)], by decide, rfl, rfl, rfl, rfl, rfl, rfl⟩

/-- The hypotheses of a tick step of a phase. -/
def tickStepIn (ph : Phase) (s : State) : Prop :=
  dueCall s = none ∧ (clockEdge s).ports.rst = false ∧ s.phase = ph ∧ (clockEdge s).ports.tick = true

-- `DELAY` = 1 for the effect; for the selection 0, which every `DELAY_W` holds, and any other value but 1
theorem test_witness_WaitLetsOneTickGoBy :
    (driven .driveLow delayOne).delay.toNat ≠ 0
      ∧ (∀ ph ∈ [Phase.driveLow, .driveHigh], ∃ s, tickStepIn ph s ∧ s.delay.toNat ≠ 1)
      ∧ (∀ ph ∈ [Phase.driveLow, .driveHigh], ∃ s, dueCall s = none ∧ (clockEdge s).ports.rst = false ∧ s.phase = ph
        ∧ (clockEdge s).ports.tick = false) :=
  ⟨by decide,
    fun ph _ => ⟨given (driven ph 0#Config.delayWidth) (tickWith true), ⟨rfl, rfl, rfl, rfl⟩,
      by simp [given, driven]⟩,
    fun ph _ => ⟨given (driven ph delayOne) still, rfl, rfl, rfl, rfl⟩⟩

theorem test_witness_WaitAtZeroWraps : (driven .driveLow 0#Config.delayWidth).delay.toNat = 0 := by simp [driven]

theorem test_witness_RaiseDrivesTheWireHigh : ∃ s, tickStepIn .driveLow s ∧ s.delay.toNat = 1 :=
  ⟨given (driven .driveLow delayOne) (tickWith true), ⟨rfl, rfl, rfl, rfl⟩, rfl⟩

theorem test_witness_ReleaseHandsTheWireOver : ∃ s, tickStepIn .driveHigh s ∧ s.delay.toNat = 1 :=
  ⟨given (driven .driveHigh delayOne) (tickWith true), ⟨rfl, rfl, rfl, rfl⟩, rfl⟩

/-- The hypotheses of the statements about a tick step of the scan, `x` saying whether the sample differs. -/
def scanStep (x : Bool) (i c : Nat) (s : State) : Prop :=
  tickStepIn .scan s ∧ (clockEdge s).ports.lineIn = (s.lastState != x) ∧ s.slot.toNat = i ∧ s.counter.toNat = c

theorem test_witness_CountRecordsOneSample : (∃ s, scanStep false 84 253 s) ∧ (∃ s, scanStep false 0 0 s) :=
  ⟨⟨given (scanAt 84#7 253#8 true 40#6 []) (tickWith true), ⟨rfl, rfl, rfl, rfl⟩, rfl, rfl, rfl⟩,
    ⟨given (scanAt 0#7 0#8 true 0#6 []) (tickWith true), ⟨rfl, rfl, rfl, rfl⟩, rfl, rfl, rfl⟩⟩

theorem test_witness_TimeoutEndsTheScan : (∃ s, scanStep false 84 254 s) ∧ (∃ s, scanStep false 0 254 s) :=
  ⟨⟨given (scanAt 84#7 254#8 true 40#6 []) (tickWith true), ⟨rfl, rfl, rfl, rfl⟩, rfl, rfl, rfl⟩,
    ⟨given (scanAt 0#7 254#8 true 0#6 []) (tickWith true), ⟨rfl, rfl, rfl, rfl⟩, rfl, rfl, rfl⟩⟩

theorem test_witness_SkippedTransitionsOnlyMoveOn :
    ∀ op ∈ [Instr.skiph 3#7 0#8, .skipm 3#7 0#8, .drop 3#7 0#8],
      op = .skiph 3#7 0#8 ∨ op = .skipm 3#7 0#8 ∨ op = .drop 3#7 0#8 := by decide

theorem test_witness_ShiftAppendsTheBit :
    ∀ x ∈ [(Instr.shift0 82#7 9#8, false), (.shift1 82#7 9#8, true)],
      (x.1 = .shift0 82#7 9#8 ∧ x.2 = false ∨ x.1 = .shift1 82#7 9#8 ∧ x.2 = true)
        ∧ (scanAt 82#7 9#8 true 39#6 []).bitCount.toNat < 40 := by decide

theorem test_witness_ShiftBeyondTheFrameStops :
    ∀ op ∈ [Instr.shift0 84#7 9#8, .shift1 84#7 9#8],
      (op = .shift0 84#7 9#8 ∨ op = .shift1 84#7 9#8) ∧ 40 ≤ (scanAt 84#7 9#8 true 40#6 []).bitCount.toNat := by decide

-- one state for each branch of R100, at the ends of its range
theorem test_witness_RoleOfTheSlotDecides :
    (∃ s, scanStep true 3 254 s) ∧ (∃ s, scanStep true 83 0 s) ∧ (∃ s, scanStep true 84 254 s ∧ s.bitCount.toNat = 40)
      ∧ (∃ s, scanStep true 4 17 s ∧ s.bitCount.toNat < 40) ∧ (∃ s, scanStep true 4 16 s ∧ s.bitCount.toNat < 40) :=
  ⟨⟨given (scanAt 3#7 254#8 false 0#6 []) (tickWith true), ⟨rfl, rfl, rfl, rfl⟩, rfl, rfl, rfl⟩,
    ⟨given (scanAt 83#7 0#8 false 40#6 []) (tickWith true), ⟨rfl, rfl, rfl, rfl⟩, rfl, rfl, rfl⟩,
    ⟨given (scanAt 84#7 254#8 true 40#6 []) (tickWith false), ⟨⟨rfl, rfl, rfl, rfl⟩, rfl, rfl, rfl⟩, rfl⟩,
    ⟨given (scanAt 4#7 17#8 true 0#6 []) (tickWith false), ⟨⟨rfl, rfl, rfl, rfl⟩, rfl, rfl, rfl⟩, by decide⟩,
    ⟨given (scanAt 4#7 16#8 true 0#6 []) (tickWith false), ⟨⟨rfl, rfl, rfl, rfl⟩, rfl, rfl, rfl⟩, by decide⟩⟩

theorem test_witness_CountDecidesTheBit :
    (∃ s, scanStep true 4 16 s ∧ s.bitCount.toNat < 40) ∧ (∃ s, scanStep true 84 254 s ∧ s.bitCount.toNat < 40) :=
  ⟨⟨given (scanAt 4#7 16#8 true 0#6 []) (tickWith false), ⟨⟨rfl, rfl, rfl, rfl⟩, rfl, rfl, rfl⟩, by decide⟩,
    ⟨given (scanAt 84#7 254#8 true 39#6 []) (tickWith false), ⟨⟨rfl, rfl, rfl, rfl⟩, rfl, rfl, rfl⟩, by decide⟩⟩

theorem test_witness_UnselectableWordStops : (∃ s, scanStep true 85 0 s) ∧ (∃ s, scanStep false 84 255 s) :=
  ⟨⟨given (scanAt 85#7 0#8 true 0#6 []) (tickWith false), ⟨rfl, rfl, rfl, rfl⟩, rfl, rfl, rfl⟩,
    ⟨given (scanAt 84#7 255#8 true 0#6 []) (tickWith true), ⟨rfl, rfl, rfl, rfl⟩, rfl, rfl, rfl⟩⟩

/-! ### States that meet the invariant -/

/-- The invariant where nothing but the phase differs from a fresh attempt; the registers of the wire fit the phase. -/
theorem inv_fresh (s : State) (hf : s.frame = []) (hb : s.bitCount = 0#6) (hs : s.slot.toNat ≤ 4) (hc : s.counter = 0#8)
    (hh : s.lastHumidity = 0xD8F1#16) (ht : s.lastTemperature = 0xD8F1#16)
    (hw : s.lineOe = true ↔ (s.phase = .driveLow ∨ s.phase = .driveHigh)) (ho : s.lineOut = decide (s.phase ≠ .driveLow))
    (hl : s.lastState = decide (s.slot.toNat % 2 = 0)) (hz : s.phase ≠ .scan → s.slot = 0#7)
    (hto : s.timedOut = false) (hd : s.done = true → s.phase = .idle)
    (h0 : s.phase = .driveLow ∨ s.phase = .driveHigh → 1 ≤ s.delay.toNat) (h1 : s.phase ≠ .driveHigh → s.delay.toNat ≤ Config.settleTicks)
    (h2 : s.phase ≠ .driveLow → s.delay.toNat ≤ Config.releaseTicks)
    (hr : ∀ r, s.host.reading = some r → r.attempts < 20 ∧ (r.awaiting = true → s.phase ≠ .idle ∨ s.done = true))
    (hn : s.host.returned = none) : s.Inv where
  frameCanonical := by rw [hf]; rfl
  bitCountLe := by rw [hb]; decide
  slotLe := by omega
  slotLast := by omega
  counterInScan := by rw [hc]; exact fun _ => by decide
  counterSentinel := by rw [hc]; exact fun h => absurd h (by decide)
  partialByte := by rw [hf, hb]; exact fun _ => by decide
  laterBytes := by rw [hf]; exact fun _ _ => rfl
  bitCountOfSlot := by rw [hb]; change 0 = _; omega
  lineDriven := hw
  results := .inl ⟨hh, ht⟩
  freshWhileDriven := fun h => by
    have h' := hz (by rcases h with h | h <;> rw [h] <;> decide)
    exact ⟨h', hc, hb, by rw [hl, h']; rfl⟩
  delayNotZero := h0
  delayLow := fun h => h1 (by rw [h]; decide)
  delayHigh := fun h => h2 (by rw [h]; decide)
  delayLe := by
    rcases Decidable.em (s.phase = .driveLow) with h | h
    · exact le_trans (h1 (by rw [h]; decide)) (le_max_left _ _)
    · exact le_trans (h2 h) (le_max_right _ _)
  parityInScan := fun _ => hl
  timedOutLate := by rw [hto]; exact fun h => absurd h (by decide)
  lineOut := ho
  doneIdle := hd
  readCount := fun r h => (hr r h).1
  readAwaits := fun r h => (hr r h).2
  returnedCount := fun r h => by rw [hn] at h; cases h

/-- A state in IDLE: right after reset, but for the inputs to come. -/
def idleThen (q : List PortsIn) : State := { State.reset with script := q }

/-- A state at the start of DRIVE_LOW. -/
def lowThen (q : List PortsIn) : State :=
  { State.reset with phase := .driveLow, lineOe := true, lineOut := false, delay := delayOf Config.settleTicks, script := q }

/-- A state at the start of DRIVE_HIGH. -/
def highThen (q : List PortsIn) : State :=
  { State.reset with phase := .driveHigh, lineOe := true, delay := delayOf Config.releaseTicks, script := q }

/-- A state at the start of slot `i` of a scan, `i` at most 4 and even. -/
def scanThen (i : BitVec 7) (q : List PortsIn) : State := { State.reset with phase := .scan, slot := i, script := q }

theorem inv_idle (q : List PortsIn) : (idleThen q).Inv := by
  apply inv_fresh <;> simp [idleThen, State.reset, Config.unset, HostState.quiet]

theorem inv_low (q : List PortsIn) : (lowThen q).Inv := by
  apply inv_fresh <;> simp [lowThen, State.reset, Config.unset, HostState.quiet, one_le_settleTicks]

theorem inv_high (q : List PortsIn) : (highThen q).Inv := by
  apply inv_fresh <;> simp [highThen, State.reset, Config.unset, HostState.quiet, one_le_releaseTicks]

theorem inv_scan_0 (q : List PortsIn) : (scanThen 0#7 q).Inv := by
  apply inv_fresh <;> simp [scanThen, State.reset, Config.unset, HostState.quiet]

theorem inv_scan_4 (q : List PortsIn) : (scanThen 4#7 q).Inv := by
  apply inv_fresh <;> simp [scanThen, State.reset, Config.unset, HostState.quiet]

theorem test_witness_invariant_clauses :
    (∃ s : State, s.Inv ∧ s.phase = .driveLow) ∧ (∃ s : State, s.Inv ∧ s.phase = .driveHigh)
      ∧ (∃ s : State, s.Inv ∧ s.phase = .scan) :=
  ⟨⟨_, inv_low [], rfl⟩, ⟨_, inv_high [], rfl⟩, ⟨_, inv_scan_0 [], rfl⟩⟩

/-- `n` tick steps at the high level. -/
def highs (n : Nat) : List PortsIn := List.replicate n (tickWith true)

theorem ticks_highs (n : Nat) : ticks (highs n) = n := by
  induction n with
  | zero => rfl
  | succ n ih => rw [highs, List.replicate_succ, ticks_cons]; change 1 + ticks (highs n) = _; omega

theorem noReset_highs (n : Nat) : NoReset (highs n) := fun p hp => by rw [List.eq_of_mem_replicate hp]; rfl

theorem endsWithTick_highs (n : Nat) : EndsWithTick (highs (n + 1)) :=
  ⟨highs n, tickWith true, List.replicate_succ', rfl⟩

theorem samples_highs (n : Nat) : samples (highs n) = List.replicate n true := by
  induction n with
  | zero => rfl
  | succ n ih =>
    rw [highs, List.replicate_succ, samples_cons, List.replicate_succ]
    exact congrArg (true :: ·) ih

/-- No response: the scan ends by timeout in slot 0, with no bit (95_test_vectors.md V4). -/
theorem test_scan_of_no_response :
    scanStream (samples (highs 255)) = some { bits := [], slot := 0, timedOut := true, rest := [] } := by
  rw [samples_highs]
  decide +kernel

-- n below SETTLE_TICKS, from SETTLE_TICKS on, and at SETTLE_TICKS + RELEASE_TICKS
theorem test_witness_HandshakeDrivesLowThenHigh :
    ∀ n, n = 0 ∨ n = Config.settleTicks ∨ n = Config.settleTicks + Config.releaseTicks →
      (lowThen (highs n ++ [])).Inv ∧ (lowThen (highs n ++ [])).host.call = none ∧ NoReset (highs n)
        ∧ ticks (highs n) = n :=
  fun n _ => ⟨inv_low _, rfl, noReset_highs n, ticks_highs n⟩

theorem test_witness_handshake_last_step : EndsWithTick (highs (Config.settleTicks + Config.releaseTicks)) :=
  endsWithTick_highs (Config.settleTicks + Config.releaseExtra)

theorem test_witness_RunLengthBecomesTheBit :
    ∀ n, n = 0 ∨ n = 16 ∨ n = 17 ∨ n = 254 ∨ n = 255 →
      (scanThen 4#7 (highs n ++ [tickWith false])).Inv ∧ (highs n).length = n
        ∧ (∀ x ∈ highs n, x.rst = false ∧ x.tick = true ∧ x.lineIn = (scanThen 4#7 []).lastState)
        ∧ (tickWith false).lineIn ≠ (scanThen 4#7 []).lastState ∧ (scanThen 4#7 []).bitCount.toNat < 40 :=
  fun n _ => ⟨inv_scan_4 _, List.length_replicate, fun x hx => by rw [List.eq_of_mem_replicate hx]; exact ⟨rfl, rfl, rfl⟩,
    by decide, by decide⟩

/-! ### Validation, the host's READ -/

/-- The hypotheses of a clock step in VALIDATE. -/
def validateStep (s : State) : Prop := dueCall s = none ∧ (clockEdge s).ports.rst = false ∧ s.phase = .validate

theorem test_witness_CommitWritesBothResults :
    ∃ s, validateStep s ∧ 40 ≤ s.bitCount.toNat ∧ checksumEqual s = true :=
  ⟨given (validateAt 40#6 [(0, 0x2D#8), (2, 0x17#8), (4, 0x44#8)] 11#16 22#16) still, ⟨rfl, rfl, rfl⟩, by decide,
    by decide⟩

theorem test_witness_RejectLeavesTheResults :
    (∃ s, validateStep s ∧ s.bitCount.toNat < 40 ∧ checksumEqual s = true)
      ∧ (∃ s, validateStep s ∧ 40 ≤ s.bitCount.toNat ∧ checksumEqual s = false) :=
  ⟨⟨given (validateAt 39#6 [] 11#16 22#16) still, ⟨rfl, rfl, rfl⟩, by decide, by decide⟩,
    ⟨given (validateAt 40#6 [(4, 1#8)] 11#16 22#16) still, ⟨rfl, rfl, rfl⟩, by decide, by decide⟩⟩

theorem test_witness_ReadBeginsTheRetry :
    ∃ s : State, s.host.reading = none ∧ s.host.call = some 7#8 :=
  ⟨{ State.reset with host := { HostState.quiet with call := some 7#8 } }, rfl, rfl⟩

/-- The hypotheses of `ReadFollowsItsPseudocode` for a state that has just ended an attempt. -/
def ended (ok : Bool) (n : Nat) : State := given (reading { State.reset with done := true, ok := ok } n true) still

theorem test_witness_ReadFollowsItsPseudocode :
    ∀ s ∈ [given (reading (scanAt 4#7 0#8 true 0#6 []) 0 false) still, given (reading State.reset 0 false) still,
        given (reading (scanAt 4#7 0#8 true 0#6 []) 0 true) still, ended true 0, ended false 19, ended false 18],
      s.host.reading ≠ none ∧ (clockEdge s).ports.rst = false := by decide

theorem inv_ended (ok : Bool) : (ended ok 0).Inv := by
  apply inv_fresh <;> simp [ended, given, reading, State.reset, Config.unset]

theorem test_witness_ReadReturnsTheFirstSuccess :
    ∀ ok : Bool, ∃ t, (ended ok 0).Inv ∧ NoReset [still] ∧ Reaches 1 (ended ok 0) t
      ∧ (outcomesShown 1 (ended ok 0)).map AttemptOutcome.ok = [ok] := by
  intro ok
  cases ok
  · exact ⟨_, inv_ended false, by simp [NoReset, still, tickWith], (reaches_succ 0 _ _).2 ⟨_, rfl, (reaches_zero _ _).2 rfl⟩, rfl⟩
  · exact ⟨_, inv_ended true, by simp [NoReset, still, tickWith], (reaches_succ 0 _ _).2 ⟨_, rfl, (reaches_zero _ _).2 rfl⟩, rfl⟩

/-! ### Words and whole-machine rules -/

theorem test_witness_StepRunsTheSelectedOperation :
    (∃ s w i, dueCall s = none ∧ selectionWord (clockEdge s) = some w ∧ decode w = .ok i)
      ∧ (∃ s : State, dueCall s = some 7#8) :=
  ⟨⟨given State.reset (command 7#8), .cmd 0x107#9, .attempt 7#8, rfl, by decide, by decide⟩,
    ⟨{ State.reset with host := { HostState.quiet with call := some 7#8 } }, rfl⟩⟩

theorem test_witness_NothingHappensBetweenTicks :
    ∀ ph ∈ [Phase.driveLow, .driveHigh, .scan], ∃ s, dueCall s = none ∧ (clockEdge s).ports.rst = false
      ∧ (clockEdge s).ports.tick = false ∧ s.phase = ph :=
  fun ph _ => ⟨given (driven ph delayOne) still, rfl, rfl, rfl, rfl⟩

-- the ends of every range of R63
theorem test_witness_SlotWordsSelectOneOfSeven :
    ((84#7).toNat ≤ 84 ∧ (253#8).toNat ≤ 253) ∧ ((3#7).toNat ≤ 3 ∧ (254#8).toNat ≤ 254)
      ∧ (5 ≤ (5#7).toNat ∧ 5 ≤ (83#7).toNat ∧ (83#7).toNat ≤ 83 ∧ (5#7).toNat % 2 = 1 ∧ (83#7).toNat % 2 = 1)
      ∧ (4 ≤ (4#7).toNat ∧ 4 ≤ (84#7).toNat ∧ (84#7).toNat ≤ 84 ∧ (4#7).toNat % 2 = 0 ∧ (84#7).toNat % 2 = 0)
      ∧ ((16#8).toNat ≤ 16 ∧ 17 ≤ (17#8).toNat) ∧ (85 ≤ (85#7).toNat ∧ (255#8).toNat = 255) := by decide

theorem test_witness_DecodeOfEncodeIsTheOperation :
    ∀ i ∈ [Instr.reset, .nop, .attempt 255#8, .wait, .raise, .release, .count 84#7 253#8, .tmo 84#7, .skiph 3#7 254#8,
        .skipm 83#7 254#8, .shift0 84#7 16#8, .shift1 4#7 17#8, .drop 84#7 254#8, .commit, .reject false true,
        .read 255#8],
      i.wellFormed = true := by decide

theorem test_witness_DecodedOperationsAreWellFormed : ∃ w i, decode w = .ok i :=
  ⟨.slot 0x10410#17, .shift0 4#7 16#8, by decide⟩

theorem test_witness_FetchWordIsTheNextOperation :
    decodeTableWord 24 0x10410 = some (.shift0 4#7 16#8) ∧ decodeTableWord 0 7 = some (.read 7#8) := by decide

theorem test_witness_steps_in_every_phase :
    ∀ ph : Phase, ∃ s t, s.phase = ph ∧ dueCall s = none ∧ (clockEdge s).ports.rst = false ∧ step s = .next t := by
  intro ph
  cases ph
  · exact ⟨given State.reset (command 7#8), _, rfl, rfl, rfl, rfl⟩
  · exact ⟨given (driven .driveLow delayOne) (tickWith true), _, rfl, rfl, rfl, rfl⟩
  · exact ⟨given (driven .driveHigh delayOne) (tickWith true), _, rfl, rfl, rfl, rfl⟩
  · exact ⟨given (scanAt 84#7 254#8 true 40#6 []) (tickWith true), _, rfl, rfl, rfl, rfl⟩
  · exact ⟨given (validateAt 40#6 [] 0#16 0#16) still, _, rfl, rfl, rfl, rfl⟩

-- for the statements about writers (R15, R16, R24 and the others): every operation answers a next state somewhere
theorem test_witness_every_operation_completes :
    ∀ i ∈ [Instr.reset, .nop, .attempt 7#8, .wait, .raise, .release, .count 4#7 0#8, .tmo 4#7, .skiph 3#7 0#8,
        .skipm 5#7 0#8, .shift0 4#7 16#8, .shift1 4#7 17#8, .drop 84#7 0#8, .commit, .reject false true, .read 7#8],
      (nextOf (exec i (scanAt 4#7 0#8 true 0#6 []))).isSome = true := by
  intro i hi
  simp only [List.mem_cons, List.not_mem_nil, or_false] at hi
  rcases hi with rfl | rfl | rfl | rfl | rfl | rfl | rfl | rfl | rfl | rfl | rfl | rfl | rfl | rfl | rfl | rfl <;> rfl

theorem test_witness_CommandHandshakeAndValidateWords :
    (false && true) = false ∧ ∀ ph : Phase, ∃ s : State, s.ports.rst = false ∧ s.phase = ph :=
  ⟨rfl, fun ph => ⟨driven ph delayOne, rfl, rfl⟩⟩

theorem test_witness_OnlyThesePhaseTransitions :
    ∃ s t, dueCall s = none ∧ step s = .next t ∧ (clockEdge s).ports.rst = true :=
  ⟨given (scanAt 4#7 9#8 true 0#6 []) resetPorts, _, rfl, rfl, rfl⟩

theorem test_witness_FrameWrittenOnlyByItsWriters :
    ∃ i s t, exec i s = .next t ∧ i ≠ .reset ∧ (∀ p, i ≠ .attempt p) ∧ (∀ a c, i ≠ .shift0 a c)
      ∧ (∀ a c, i ≠ .shift1 a c) ∧ s.frame ≠ [] :=
  ⟨.drop 84#7 9#8, scanAt 84#7 9#8 true 40#6 [(0, 1#8)], _, rfl, by simp, by simp, by simp, by simp, by decide⟩

theorem test_witness_ResultsWrittenOnlyByCommitAndReset : ∃ i s t, exec i s = .next t ∧ i ≠ .reset ∧ i ≠ .commit :=
  ⟨.reject true false, validateAt 40#6 [(4, 1#8)] 11#16 22#16, _, rfl, by simp, by simp⟩

theorem test_witness_LineWrittenOnlyByTheHandshake :
    ∃ i s t, exec i s = .next t ∧ i ≠ .reset ∧ (∀ p, i ≠ .attempt p) ∧ i ≠ .raise ∧ i ≠ .release :=
  ⟨.wait, driven .driveLow delayOne, _, rfl, by simp, by simp, by simp, by simp⟩

theorem test_witness_OtherRegistersWrittenOnlyByTheirWriters :
    ∃ s t, exec .release s = .next t ∧ s.slot = 3#7 := ⟨scanAt 3#7 0#8 false 0#6 [], _, rfl, rfl⟩

theorem test_witness_ValidateStepDecidesTheAttempt :
    ∀ ok : Bool, ∃ s, validateStep s ∧ (nextOf (step s)).map State.ok = some ok := by
  intro ok
  cases ok
  · exact ⟨given (validateAt 39#6 [] 11#16 22#16) still, ⟨rfl, rfl, rfl⟩, by decide⟩
  · exact ⟨given (validateAt 40#6 [] 11#16 22#16) still, ⟨rfl, rfl, rfl⟩, by decide⟩

theorem test_witness_CommandsWhileBusyAreIgnored :
    ∃ (s : State) (p p' : PortsIn), s.phase ≠ .idle ∧ s.phase ≠ .validate ∧ dueCall s = none ∧ p' ≠ p ∧ p'.rst = p.rst
      ∧ p'.tick = p.tick ∧ p'.lineIn = p.lineIn ∧ (nextOf (step { s with script := [p] })).isSome = true :=
  ⟨scanAt 10#7 0#8 true 3#6 [], still, { still with start := true, pin := 9#8 }, by decide, by decide, rfl, by decide,
    rfl, rfl, rfl, rfl⟩

theorem test_witness_PinIdentifierIsNeverRead :
    (∃ s t : State, step s = .next t) ∧ (∃ (s : State) (r : Fault), step s = .fault r) :=
  ⟨⟨given State.reset still, _, rfl⟩, ⟨given (scanAt 85#7 0#8 true 0#6 []) (tickWith true), .noOperation, rfl⟩⟩

theorem test_witness_OneDonePulseEndsAnAttempt :
    ∃ s t : State, s.Inv ∧ dueCall s = none ∧ step s = .next t := ⟨idleThen [still], _, inv_idle _, rfl, rfl⟩

theorem test_witness_ResultsChangeOnlyAtTheEnd :
    (∃ s t, step s = .next t ∧ dueCall s = none ∧ (clockEdge s).ports.rst = false ∧ s.phase = .scan)
      ∧ (∃ s t, step s = .next t ∧ dueCall s = none ∧ (clockEdge s).ports.rst = false ∧ s.phase = .idle
        ∧ (clockEdge s).ports.start = false) :=
  ⟨⟨given (scanAt 4#7 0#8 true 0#6 []) still, _, rfl, rfl, rfl, rfl⟩, ⟨given State.reset still, _, rfl, rfl, rfl, rfl, rfl⟩⟩

theorem test_witness_StepKeepsTheInvariant : ∃ s t : State, s.Inv ∧ step s = .next t :=
  ⟨scanThen 4#7 [tickWith false], _, inv_scan_4 _, rfl⟩

theorem test_witness_FrameStaysCanonical : ∃ s t : State, Memory.wf s.frame = true ∧ step s = .next t ∧ s.frame ≠ [] :=
  ⟨given (scanAt 6#7 20#8 true 1#6 [(0, 1#8)]) (tickWith false), _, by decide, rfl, by decide⟩

theorem test_witness_ScanEndsWithinItsBound :
    (scanThen 0#7 (highs 21675 ++ [])).Inv ∧ (scanThen 0#7 (highs 21675 ++ [])).host.call = none
      ∧ (scanThen 0#7 (highs 21675 ++ [])).phase = .scan ∧ NoReset (highs 21675) ∧ 21675 ≤ ticks (highs 21675) :=
  ⟨inv_scan_0 _, rfl, rfl, noReset_highs _, le_of_eq (ticks_highs _).symm⟩

theorem test_witness_AttemptEndsWithinItsBound :
    ∃ q, (lowThen (q ++ still :: [])).Inv ∧ (lowThen (q ++ still :: [])).host.call = none
      ∧ (lowThen (q ++ still :: [])).phase ≠ .idle ∧ NoReset q ∧ still.rst = false
      ∧ Config.settleTicks + Config.releaseTicks + 21675 ≤ ticks q :=
  ⟨highs (Config.settleTicks + Config.releaseTicks + 21675), inv_low _, rfl, by decide, noReset_highs _, rfl,
    le_of_eq (ticks_highs _).symm⟩

theorem test_witness_ScanMeetsTheLoopForm :
    ∃ e, (scanThen 0#7 (highs 255 ++ [])).Inv ∧ (scanThen 0#7 (highs 255 ++ [])).host.call = none
      ∧ NoReset (highs 255) ∧ EndsWithTick (highs 255) ∧ scanStream (samples (highs 255)) = some e ∧ e.rest = [] :=
  ⟨_, inv_scan_0 _, rfl, noReset_highs _, endsWithTick_highs 254, test_scan_of_no_response, rfl⟩

theorem test_witness_AttemptIsAFunctionOfTheStream :
    ∃ h q e, (idleThen (command 7#8 :: (h ++ (q ++ still :: [])))).Inv
      ∧ (idleThen (command 7#8 :: (h ++ (q ++ still :: [])))).host = HostState.quiet
      ∧ (command 7#8).rst = false ∧ (command 7#8).start = true ∧ NoReset h
      ∧ ticks h = Config.settleTicks + Config.releaseTicks ∧ EndsWithTick h ∧ NoReset q ∧ EndsWithTick q
      ∧ scanStream (samples q) = some e ∧ e.rest = [] :=
  ⟨highs (Config.settleTicks + Config.releaseTicks), highs 255, _, inv_idle _, rfl, rfl, rfl, noReset_highs _,
    ticks_highs _, test_witness_handshake_last_step, noReset_highs _, endsWithTick_highs 254, test_scan_of_no_response,
    rfl⟩

/-! ### The premises about the pins -/

/-- A set-up environment whose pin 7 never answers. -/
def quietPin : Environment :=
  { platformReady := true
    pinsReady := [7#8]
    exclusive := true
    levels := fun pin => if pin = 7#8 then List.replicate 255 true else []
    driven := fun _ => none }

theorem test_witness_SetUpPremise : SetUpPremise quietPin 7#8 ∧ ExclusivePremise quietPin :=
  ⟨⟨rfl, by decide⟩, rfl⟩

-- the premise is one: a pin that is not set up does not meet it
theorem test_setUpPremise_fails : ¬ SetUpPremise quietPin 8#8 := fun h => absurd h.2 (by decide)

theorem test_witness_feeds : quietPin.Feeds 7#8 (highs 255) := fun _ _ => samples_highs 255

/-- A state of DRIVE_LOW whose pin is 7. -/
def lowOnPin (q : List PortsIn) : State := { lowThen q with pin := 7#8 }

theorem inv_lowOnPin (q : List PortsIn) : (lowOnPin q).Inv := by
  apply inv_fresh <;> simp [lowOnPin, lowThen, State.reset, Config.unset, HostState.quiet, one_le_settleTicks]

theorem test_witness_SetUpPinIsDrivenLowThenHigh :
    ∀ n, n = 0 ∨ n = Config.settleTicks ∨ n = Config.settleTicks + Config.releaseTicks →
      (lowOnPin (highs n ++ [])).Inv ∧ (lowOnPin (highs n ++ [])).delay.toNat = Config.settleTicks ∧ NoReset (highs n)
        ∧ ticks (highs n) = n ∧ SetUpPremise quietPin (lowOnPin (highs n ++ [])).pin :=
  fun n _ => ⟨inv_lowOnPin _, delayOf_settleTicks, noReset_highs n, ticks_highs n, test_witness_SetUpPremise.1⟩

-- the ports of the three phases, and an environment that follows them
theorem test_witness_followsPorts (o : PortsOut) : ({ quietPin with driven := padDrive o } : Environment).FollowsPorts o :=
  fun _ _ _ => rfl

theorem test_witness_AttemptReadsItsSetUpPin :
    ∃ h x, (idleThen (command 7#8 :: (h ++ (highs 255 ++ still :: [])))).Inv ∧ NoReset h
      ∧ ticks h = Config.settleTicks + Config.releaseTicks ∧ EndsWithTick h ∧ NoReset (highs 255)
      ∧ EndsWithTick (highs 255) ∧ SetUpPremise quietPin (command 7#8).pin ∧ ExclusivePremise quietPin
      ∧ quietPin.Feeds (command 7#8).pin (highs 255) ∧ scanStream (quietPin.levels 7#8) = some x ∧ x.rest = [] :=
  ⟨highs (Config.settleTicks + Config.releaseTicks), _, inv_idle _, noReset_highs _, ticks_highs _,
    test_witness_handshake_last_step, noReset_highs _, endsWithTick_highs 254, test_witness_SetUpPremise.1, rfl,
    test_witness_feeds, by
      have h := test_scan_of_no_response
      rw [samples_highs] at h
      exact h, rfl⟩

theorem test_witness_ReadStaysOnItsSetUpPin :
    ∃ s t : State, s.host.call = none ∧ s.host.reading = some { pin := 7#8, attempts := 0, awaiting := false }
      ∧ s.script = [still] ++ [] ∧ NoReset [still] ∧ Reaches 1 s t
      ∧ t.host.reading = some { pin := 7#8, attempts := 0, awaiting := true } ∧ SetUpPremise quietPin 7#8 :=
  ⟨given (reading State.reset 0 false) still, _, rfl, rfl, rfl, by simp [NoReset, still, tickWith],
    (reaches_succ 0 _ _).2 ⟨_, rfl, (reaches_zero _ _).2 rfl⟩, rfl, test_witness_SetUpPremise.1⟩

end Sys2Proof.Tests
end

/-! PROOFS. The scope and the clock step without a tick (spec/00_scope.md R7, R10). -/

namespace Sys2Proof.Machine

/-- R7 over any width, not only over `DELAY_W` itself: a duration is at least 1, so the larger one is not 0 and its
bit length is its `log2` plus 1. -/
theorem max_durations_lt_two_pow_iff (w : Nat) :
    max Config.settleTicks Config.releaseTicks < 2 ^ w ↔ Config.delayWidth ≤ w := by
  have hne : max Config.settleTicks Config.releaseTicks ≠ 0 :=
    Nat.ne_zero_of_lt (lt_max_of_lt_left one_le_settleTicks)
  exact (Nat.log2_lt hne).symm

/-- A rising edge touches the input side and the host only. -/
theorem sameRegisters_clockEdge (s : State) : SameRegisters s (clockEdge s) := rfl

/-- R10, R61: between ticks of a driven phase or of the scan, a clock step is the rising edge alone. -/
theorem step_of_no_tick {s : State} (hd : dueCall s = none) (hr : (clockEdge s).ports.rst = false)
    (ht : (clockEdge s).ports.tick = false) (hp : s.phase = .driveLow ∨ s.phase = .driveHigh ∨ s.phase = .scan) :
    step s = .next (clockEdge s) :=
  (step_of_no_call hd).trans (blockStep_noTick hr ht hp)

/-- Settles O9: both durations are a successor, and the width is the bit length of the larger one. -/
theorem delayWidthIsTheSmallest : Obligations.DelayWidthIsTheSmallest :=
  ⟨one_le_settleTicks, one_le_releaseTicks, max_durations_lt_two_pow_iff⟩

/-- Settles O29: the next state is the rising edge's, which keeps every register and takes one coming port value. -/
theorem nothingHappensBetweenTicks : Obligations.NothingHappensBetweenTicks :=
  fun s hd hr ht hp => ⟨clockEdge s, step_of_no_tick hd hr ht hp, sameRegisters_clockEdge s, clockEdge_script s⟩

end Sys2Proof.Machine

/-! PROOFS. The state, what each clock step makes of it, and its invariant (spec/10_state.md R14 to R33). -/

namespace Sys2Proof.Machine

/-! ## What the block can do at a clock step, the ports being presented: one rule per operation -/

/-- The state a SHIFT leaves (R103, R104): `bit` in the byte being filled, then the transition step. -/
def shifted (bit : Bool) (c : State) : State :=
  transition
    { c with
      frame := Memory.write c.frame (bitAddress c) (shiftIn (Memory.read c.frame (bitAddress c)) bit)
      bitCount := c.bitCount + 1#6 }

/-- The state `ATTEMPT pin` leaves (R80). -/
def attempted (pin : PinId) (c : State) : State :=
  { c with
    pin := pin, frame := [], bitCount := 0#6, slot := 0#7, counter := 0#8, lastState := true, timedOut := false,
    ok := false, done := false, lineOe := true, lineOut := false, delay := delayOf Config.settleTicks,
    phase := .driveLow }

/-- The state `COMMIT` leaves (R112). -/
def committed (c : State) : State :=
  endAttempt true
    { c with
      lastHumidity := BitVec.setWidth 16 (Memory.read c.frame 0)
      lastTemperature := BitVec.setWidth 16 (Memory.read c.frame 2) }

/-- The block's clock step as a relation: each rule is an operation with the condition that selects it (R61 to R64,
R100) and the state it leaves. `blockMove_of_blockStep` ties it to `blockStep`. -/
inductive BlockMove (c : State) : State → Prop where
  | reset (hr : c.ports.rst = true) : BlockMove c (resetOp c)
  | nop (hr : c.ports.rst = false) (hp : c.phase = .idle) (hs : c.ports.start = false) :
      BlockMove c { c with done := false }
  | attempt (hr : c.ports.rst = false) (hp : c.phase = .idle) (hs : c.ports.start = true) :
      BlockMove c (attempted c.ports.pin c)
  | hold (hr : c.ports.rst = false) (ht : c.ports.tick = false)
      (hp : c.phase = .driveLow ∨ c.phase = .driveHigh ∨ c.phase = .scan) : BlockMove c c
  | wait (hr : c.ports.rst = false) (ht : c.ports.tick = true) (hp : c.phase = .driveLow ∨ c.phase = .driveHigh)
      (hd : c.delay.toNat ≠ 1) : BlockMove c { c with delay := delayDown c.delay }
  | raise (hr : c.ports.rst = false) (ht : c.ports.tick = true) (hp : c.phase = .driveLow) (hd : c.delay.toNat = 1) :
      BlockMove c { c with lineOut := true, delay := delayOf Config.releaseTicks, phase := .driveHigh }
  | release (hr : c.ports.rst = false) (ht : c.ports.tick = true) (hp : c.phase = .driveHigh)
      (hd : c.delay.toNat = 1) : BlockMove c { c with lineOe := false, phase := .scan }
  | count (hr : c.ports.rst = false) (ht : c.ports.tick = true) (hp : c.phase = .scan) (hi : c.slot.toNat ≤ 84)
      (hl : c.ports.lineIn = c.lastState) (hc : c.counter.toNat ≤ 253) :
      BlockMove c { c with counter := c.counter + 1#8 }
  | tmo (hr : c.ports.rst = false) (ht : c.ports.tick = true) (hp : c.phase = .scan) (hi : c.slot.toNat ≤ 84)
      (hl : c.ports.lineIn = c.lastState) (hc : c.counter.toNat = 254) :
      BlockMove c { c with counter := 255#8, timedOut := true, phase := .validate }
  | skip (hr : c.ports.rst = false) (ht : c.ports.tick = true) (hp : c.phase = .scan) (hi : c.slot.toNat ≤ 84)
      (hl : c.ports.lineIn ≠ c.lastState) (hc : c.counter.toNat ≤ 254)
      (hd : c.slot.toNat < 4 ∨ c.slot.toNat % 2 = 1 ∨ c.bitCount.toNat = 40) : BlockMove c (transition c)
  | shift (hr : c.ports.rst = false) (ht : c.ports.tick = true) (hp : c.phase = .scan) (hi : c.slot.toNat ≤ 84)
      (hl : c.ports.lineIn ≠ c.lastState) (hc : c.counter.toNat ≤ 254) (hs : 4 ≤ c.slot.toNat)
      (he : c.slot.toNat % 2 = 0) (hb : c.bitCount.toNat < 40) : BlockMove c (shifted (bitOf c.counter) c)
  | commit (hr : c.ports.rst = false) (hp : c.phase = .validate) (hv : valid c = true) : BlockMove c (committed c)
  | reject (hr : c.ports.rst = false) (hp : c.phase = .validate) (hv : valid c = false) :
      BlockMove c (endAttempt false c)

/-- A shift that answers had room for its bit. -/
theorem shifted_of_shiftOp {b : Bool} {c t : State} (h : shiftOp b c = .next t) :
    c.bitCount.toNat < 40 ∧ t = shifted b c := shiftOp_next h

/-- The transitions, in the order of R100. -/
theorem blockMove_of_transition {c t : State} (hr : c.ports.rst = false) (ht : c.ports.tick = true)
    (hp : c.phase = .scan) (hi : c.slot.toNat ≤ 84) (hl : c.ports.lineIn ≠ c.lastState) (hc : c.counter.toNat ≤ 254)
    (h : exec (decodeTransition (decide (c.bitCount.toNat = 40)) c.slot c.counter) c = .next t) : BlockMove c t := by
  have skip {u : State} (hu : Host.Outcome.next (transition c) = (.next u : Answer))
      (hd : c.slot.toNat < 4 ∨ c.slot.toNat % 2 = 1 ∨ c.bitCount.toNat = 40) : BlockMove c u := by
    injection hu with hu
    exact hu ▸ .skip hr ht hp hi hl hc hd
  rw [decodeTransition_eq] at h
  split at h
  case isTrue h4 => exact skip h (.inl h4)
  case isFalse h4 =>
  split at h
  case isTrue hodd => exact skip h (.inr (.inl (Nat.mod_two_ne_zero.1 hodd)))
  case isFalse heven =>
  split at h
  case isTrue hfull => exact skip h (.inr (.inr (of_decide_eq_true hfull)))
  case isFalse hfull =>
  have shift (hs : shiftOp (bitOf c.counter) c = .next t) : BlockMove c t := by
    obtain ⟨hb, rfl⟩ := shifted_of_shiftOp hs
    exact .shift hr ht hp hi hl hc (Nat.not_lt.1 h4) (not_not.1 heven) hb
  split at h
  case isTrue hbit => exact shift (hbit ▸ h)
  case isFalse hbit => exact shift (Bool.eq_false_iff.2 hbit ▸ h)

/-- A tick step of the scan. -/
theorem blockMove_of_scan {c t : State} (hr : c.ports.rst = false) (ht : c.ports.tick = true) (hp : c.phase = .scan)
    (h : blockStep c = .next t) : BlockMove c t := by
  by_cases hsel : c.slot.toNat ≤ 84 ∧ c.counter.toNat ≤ 254
  case neg =>
    rw [blockStep_scan_none hr ht hp (by omega)] at h
    cases h
  case pos =>
  obtain ⟨hi, hc⟩ := hsel
  rw [blockStep_scan hr ht hp hi hc] at h
  split at h
  case isTrue hl => exact blockMove_of_transition hr ht hp hi hl hc h
  case isFalse hl =>
  split at h <;> injection h with h <;> subst h
  case isTrue h254 => exact .tmo hr ht hp hi (not_not.1 hl) h254
  case isFalse h254 => exact .count hr ht hp hi (not_not.1 hl) (by omega)

/-- Everything the block can do at a clock step that answers a next state. -/
theorem blockMove_of_blockStep {c t : State} (h : blockStep c = .next t) : BlockMove c t := by
  cases hr : c.ports.rst
  case true =>
    rw [blockStep_rst hr] at h
    injection h with h
    exact h ▸ .reset hr
  case false =>
  have hold (ht : c.ports.tick = false) (hp : c.phase = .driveLow ∨ c.phase = .driveHigh ∨ c.phase = .scan) :
      BlockMove c t := by
    rw [blockStep_noTick hr ht hp] at h
    injection h with h
    exact h ▸ .hold hr ht hp
  cases hp : c.phase with
  | idle =>
    rw [blockStep_idle hr hp] at h
    split at h <;> injection h with h <;> subst h
    case isTrue hs => exact .attempt hr hp hs
    case isFalse hs => exact .nop hr hp (Bool.eq_false_iff.2 hs)
  | driveLow =>
    cases ht : c.ports.tick with
    | false => exact hold ht (.inl hp)
    | true =>
      rw [blockStep_driveLow hr ht hp] at h
      split at h <;> injection h with h <;> subst h
      case isTrue hd => exact .raise hr ht hp hd
      case isFalse hd => exact .wait hr ht (.inl hp) hd
  | driveHigh =>
    cases ht : c.ports.tick with
    | false => exact hold ht (.inr (.inl hp))
    | true =>
      rw [blockStep_driveHigh hr ht hp] at h
      split at h <;> injection h with h <;> subst h
      case isTrue hd => exact .release hr ht hp hd
      case isFalse hd => exact .wait hr ht (.inr hp) hd
  | scan =>
    cases ht : c.ports.tick with
    | false => exact hold ht (.inr (.inr hp))
    | true => exact blockMove_of_scan hr ht hp h
  | validate =>
    rw [blockStep_validate hr hp] at h
    split at h <;> injection h with h <;> subst h
    case isTrue hv => exact .commit hr hp hv
    case isFalse hv => exact .reject hr hp (Bool.eq_false_iff.2 hv)

/-- Everything a clock step that answers a next state can do. -/
theorem blockMove_of_step {s t : State} (hd : dueCall s = none) (h : step s = .next t) : BlockMove (clockEdge s) t :=
  blockMove_of_blockStep ((step_of_no_call hd).symm.trans h)

/-! ## The part of the invariant about the frame store (R31 (a), (d)) -/

/-- `n` bits stand in the frame store, and no more: the clauses of `State.Inv` about the two registers alone. -/
structure FrameHolds (m : Memory) (n : Nat) : Prop where
  canonical : Memory.wf m = true
  countLe : n ≤ 40
  partialByte : n < 40 → (Memory.read m (n / 8)).toNat < 2 ^ (n % 8)
  laterBytes : ∀ k, n / 8 < k → Memory.read m k = 0#8

theorem State.Inv.frameHolds {s : State} (h : s.Inv) : FrameHolds s.frame s.bitCount.toNat :=
  ⟨h.frameCanonical, h.bitCountLe, h.partialByte, h.laterBytes⟩

/-- Doubling and adding a bit takes one bit position more. -/
theorem shiftIn_lt {v : Byte} {k : Nat} (b : Bool) (h : v.toNat < 2 ^ k) : (shiftIn v b).toNat < 2 ^ (k + 1) := by
  have hb : b.toNat ≤ 1 := b.toNat_le
  have hmod := Nat.mod_le (2 * v.toNat + b.toNat) 256
  rw [shiftIn_toNat, Nat.pow_succ]
  omega

/-- R37, R38: one bit more, in the byte being filled; where that byte is full, the next one is still 0. -/
theorem FrameHolds.append {m : Memory} {n : Nat} (h : FrameHolds m n) (hn : n < 40) (b : Bool) :
    FrameHolds (Memory.write m (n / 8) (shiftIn (Memory.read m (n / 8)) b)) (n + 1) where
  canonical := Memory.wf_write h.canonical (by unfold Config.frameBytes; omega) _
  countLe := hn
  partialByte _ := by
    by_cases hfull : n % 8 = 7
    · have hne : (n + 1) / 8 ≠ n / 8 := by omega
      rw [Memory.read_write_other m _ hne, h.laterBytes _ (by omega)]
      exact Nat.two_pow_pos _
    · have hk : (n + 1) / 8 = n / 8 := by omega
      have hm : (n + 1) % 8 = n % 8 + 1 := by omega
      rw [hk, hm, Memory.read_write_same]
      exact shiftIn_lt b (h.partialByte hn)
  laterBytes k hk := by
    rw [Memory.read_write_other m _ (by omega)]
    exact h.laterBytes k (by omega)

/-! ## The invariant of the block, the host's `READ` left aside

Between the host's move and the operation it commands, a `READ` waits for an attempt that has not begun: there the
clauses about the host do not hold, and the others do. -/

/-- The state with no `READ` of the host. -/
def State.hostless (s : State) : State := { s with host := HostState.quiet }

theorem State.Inv.hostless {s : State} (h : s.Inv) : s.hostless.Inv :=
  { h with readCount := nofun, readAwaits := nofun, returnedCount := nofun }

/-- A rising edge touches the input side and the host only. -/
theorem State.Inv.clockEdge_hostless {s : State} (h : s.Inv) : (clockEdge s).hostless.Inv :=
  { h.hostless with }

theorem State.Inv.of_hostless {s : State} (h : s.hostless.Inv)
    (readCount : ∀ r, s.host.reading = some r → r.attempts < 20)
    (readAwaits : ∀ r, s.host.reading = some r → r.awaiting = true → s.phase ≠ .idle ∨ s.done = true)
    (returnedCount : ∀ r, s.host.returned = some r → 1 ≤ r.attempts ∧ r.attempts ≤ 20) : s.Inv :=
  { h with readCount := readCount, readAwaits := readAwaits, returnedCount := returnedCount }

theorem State.Inv.of_quiet {s : State} (h : s.hostless.Inv) (hq : s.host = HostState.quiet) : s.Inv := by
  have hs : s.hostless = s := by rw [State.hostless, ← hq]
  exact hs ▸ h

/-- R26, R28: while the wire is driven or sampled, neither `done` nor a timeout is shown. -/
theorem not_ended_of_running {c : State} (h : c.hostless.Inv)
    (hp : c.phase = .driveLow ∨ c.phase = .driveHigh ∨ c.phase = .scan) : ¬ c.done = true ∧ ¬ c.timedOut = true := by
  have hi : c.phase ≠ .idle := by rcases hp with hp | hp | hp <;> simp [hp]
  have hv : c.phase ≠ .validate := by rcases hp with hp | hp | hp <;> simp [hp]
  exact ⟨fun hd => hi (h.doneIdle hd), fun ht => (h.timedOutLate ht).elim hv hi⟩

/-- R24, R31 (f): after the hand-over the block does not drive the wire. -/
theorem undriven_of_handedOver {c : State} (h : c.hostless.Inv) (hp : c.phase = .scan ∨ c.phase = .validate) :
    ¬ c.lineOe = true ∧ c.lineOut = true := by
  have hout : c.lineOut = decide (c.phase ≠ .driveLow) := h.lineOut
  constructor
  · intro hoe
    have hd : c.phase = .driveLow ∨ c.phase = .driveHigh := h.lineDriven.1 hoe
    rcases hp with hp | hp <;> simp [hp] at hd
  · rcases hp with hp | hp <;> simp [hout, hp]

/-- An empty frame store holds no bit. -/
theorem frameHolds_empty : FrameHolds [] 0 := ⟨rfl, by decide, fun _ => by decide, fun _ _ => rfl⟩

/-- R31 (e) before the first data slot. -/
theorem bitCountOfSlot_zero : (0#6).toNat = min 40 (((0#7).toNat - 3) / 2) := by decide

/-- Settles O47: nothing is counted, listed, driven or read, and both results are unset. -/
theorem resetMeetsTheInvariant : Obligations.ResetMeetsTheInvariant where
  frameCanonical := frameHolds_empty.canonical
  bitCountLe := frameHolds_empty.countLe
  slotLe := by decide
  slotLast := nofun
  counterInScan := nofun
  counterSentinel := nofun
  partialByte := frameHolds_empty.partialByte
  laterBytes := frameHolds_empty.laterBytes
  bitCountOfSlot := bitCountOfSlot_zero
  lineDriven := by decide
  results := .inl ⟨rfl, rfl⟩
  freshWhileDriven := by decide
  delayNotZero := by decide
  delayLow := nofun
  delayHigh := nofun
  delayLe := by simp
  parityInScan := nofun
  timedOutLate := nofun
  lineOut := rfl
  doneIdle := nofun
  readCount := nofun
  readAwaits := nofun
  returnedCount := nofun

/-- The state reset leaves differs from `State.reset` in the input side, which the invariant does not speak of. -/
theorem inv_resetOp (c : State) : (resetOp c).Inv :=
  { resetMeetsTheInvariant with }

/-! ## Every operation, where it is selected, keeps the clauses about the block -/

section
variable {c : State} (h : c.hostless.Inv)
include h

theorem hostless_inv_nop : State.Inv (State.hostless { c with done := false }) :=
  { h with doneIdle := nofun, readAwaits := nofun }

/-- R29, R80: of the state before only the results are left. -/
theorem hostless_inv_attempted (pin : PinId) : (attempted pin c).hostless.Inv :=
  { h with
    frameCanonical := frameHolds_empty.canonical
    bitCountLe := frameHolds_empty.countLe
    slotLe := Nat.zero_le 85
    slotLast := nofun
    counterInScan := nofun
    counterSentinel := nofun
    partialByte := frameHolds_empty.partialByte
    laterBytes := frameHolds_empty.laterBytes
    bitCountOfSlot := bitCountOfSlot_zero
    lineDriven := ⟨fun _ => .inl rfl, fun _ => rfl⟩
    freshWhileDriven := fun _ => ⟨rfl, rfl, rfl, rfl⟩
    delayNotZero := fun _ => delayOf_settleTicks ▸ one_le_settleTicks
    delayLow := fun _ => delayOf_settleTicks.le
    delayHigh := nofun
    delayLe := delayOf_settleTicks.le.trans (le_max_left _ _)
    parityInScan := nofun
    timedOutLate := nofun
    lineOut := rfl
    doneIdle := nofun
    readAwaits := nofun }

/-- R88: `DELAY` counts down from at least 2. -/
theorem hostless_inv_wait (hp : c.phase = .driveLow ∨ c.phase = .driveHigh) (hd : c.delay.toNat ≠ 1) :
    State.Inv (State.hostless { c with delay := delayDown c.delay }) := by
  have h1 : 1 ≤ c.delay.toNat := h.delayNotZero hp
  have hdown : (delayDown c.delay).toNat = c.delay.toNat - 1 := delayDown_of_ne_zero (by omega)
  have hle : (delayDown c.delay).toNat ≤ c.delay.toNat := hdown ▸ Nat.sub_le _ _
  exact
    { h with
      delayNotZero := fun _ => show 1 ≤ (delayDown c.delay).toNat by omega
      delayLow := fun hl => hle.trans (h.delayLow hl)
      delayHigh := fun hh => hle.trans (h.delayHigh hh)
      delayLe := hle.trans h.delayLe }

/-- R89: the wire stays driven, now high. -/
theorem hostless_inv_raise (hp : c.phase = .driveLow) :
    State.Inv (State.hostless
      { c with lineOut := true, delay := delayOf Config.releaseTicks, phase := .driveHigh }) := by
  obtain ⟨hdone, htimeout⟩ := not_ended_of_running h (.inl hp)
  have hfresh : c.slot = 0#7 ∧ c.counter = 0#8 ∧ c.bitCount = 0#6 ∧ c.lastState = true :=
    h.freshWhileDriven (.inl hp)
  have hdelay := delayOf_releaseTicks
  exact
    { h with
      slotLast := fun (h85 : c.slot.toNat = 85) => absurd (hfresh.1 ▸ h85) (by decide)
      counterInScan := nofun
      lineDriven := ⟨fun _ => .inr rfl, fun _ => h.lineDriven.2 (.inl hp)⟩
      freshWhileDriven := fun _ => hfresh
      delayNotZero := fun _ => one_le_releaseTicks.trans hdelay.ge
      delayLow := nofun
      delayHigh := fun _ => hdelay.le
      delayLe := hdelay.le.trans (le_max_right _ _)
      parityInScan := nofun
      timedOutLate := fun ht => absurd ht htimeout
      lineOut := rfl
      doneIdle := fun hd => absurd hd hdone
      readAwaits := nofun }

/-- R90: the scan begins with what `ATTEMPT` set. -/
theorem hostless_inv_release (hp : c.phase = .driveHigh) :
    State.Inv (State.hostless { c with lineOe := false, phase := .scan }) := by
  obtain ⟨hdone, htimeout⟩ := not_ended_of_running h (.inr (.inl hp))
  obtain ⟨hslot, hcounter, -, hlast⟩ :
      c.slot = 0#7 ∧ c.counter = 0#8 ∧ c.bitCount = 0#6 ∧ c.lastState = true := h.freshWhileDriven (.inr hp)
  have hout : c.lineOut = decide (c.phase ≠ .driveLow) := h.lineOut
  exact
    { h with
      slotLast := fun (h85 : c.slot.toNat = 85) => absurd (hslot ▸ h85) (by decide)
      counterInScan := fun _ => show c.counter.toNat ≤ 254 by simp [hcounter]
      lineDriven := ⟨nofun, fun hd => hd.elim nofun nofun⟩
      freshWhileDriven := fun hd => hd.elim nofun nofun
      delayNotZero := fun hd => hd.elim nofun nofun
      delayLow := nofun
      delayHigh := nofun
      parityInScan := fun _ => show c.lastState = decide (c.slot.toNat % 2 = 0) by simp [hlast, hslot]
      timedOutLate := fun ht => absurd ht htimeout
      lineOut := show c.lineOut = true by simp [hout, hp]
      doneIdle := fun hd => absurd hd hdone
      readAwaits := nofun }

/-- R93: below 254 there is room for one more. -/
theorem hostless_inv_count (hp : c.phase = .scan) (hc : c.counter.toNat ≤ 253) :
    State.Inv (State.hostless { c with counter := c.counter + 1#8 }) := by
  have hcount : (c.counter + 1#8).toNat = c.counter.toNat + 1 := by bv_omega
  exact
    { h with
      counterInScan := fun _ => show (c.counter + 1#8).toNat ≤ 254 by omega
      counterSentinel := fun (h255 : (c.counter + 1#8).toNat = 255) => by omega
      freshWhileDriven := fun hd => hd.elim (fun hd => nomatch hp.symm.trans hd) (fun hd => nomatch hp.symm.trans hd) }

/-- The end of the scan and of the attempt, as far as `PHASE` goes: what is counted and received stays. -/
theorem hostless_inv_leave (hp : c.phase = .scan ∨ c.phase = .validate) {p : Phase} (hp' : p = .validate ∨ p = .idle)
    (hd : c.done = true → p = .idle) : State.Inv (State.hostless { c with phase := p }) := by
  obtain ⟨hoe, hout⟩ := undriven_of_handedOver h hp
  have hnd : ¬ (p = .driveLow ∨ p = .driveHigh) := by rcases hp' with rfl | rfl <;> simp
  have hns : p ≠ .scan := by rcases hp' with rfl | rfl <;> simp
  exact
    { h with
      slotLast := fun _ => hp'
      counterInScan := fun hs => absurd hs hns
      lineDriven := ⟨fun ho => absurd ho hoe, fun hdr => absurd hdr hnd⟩
      freshWhileDriven := fun hdr => absurd hdr hnd
      delayNotZero := fun hdr => absurd hdr hnd
      delayLow := fun hdr => absurd (.inl hdr) hnd
      delayHigh := fun hdr => absurd (.inr hdr) hnd
      parityInScan := fun hs => absurd hs hns
      timedOutLate := fun _ => hp'
      lineOut := show c.lineOut = decide (p ≠ .driveLow) by rcases hp' with rfl | rfl <;> simp [hout]
      doneIdle := hd
      readAwaits := nofun }

/-- R94: the sentinel 255 stands in `COUNTER` only together with `TIMED_OUT`. -/
theorem hostless_inv_tmo (hp : c.phase = .scan) :
    State.Inv (State.hostless { c with counter := 255#8, timedOut := true, phase := .validate }) :=
  have hdone := (not_ended_of_running h (.inr (.inr hp))).1
  { hostless_inv_leave h (.inl hp) (.inl rfl) fun hd => absurd hd hdone with
    counterInScan := nofun
    counterSentinel := fun _ => rfl
    freshWhileDriven := fun hd => hd.elim nofun nofun
    timedOutLate := fun _ => .inl rfl }

/-- R112, R113: the end of an attempt. -/
theorem hostless_inv_endAttempt (hp : c.phase = .validate) (b : Bool) : (endAttempt b c).hostless.Inv :=
  { hostless_inv_leave h (.inr hp) (.inr rfl) fun _ => rfl with doneIdle := fun _ => rfl, readAwaits := nofun }

/-- R112, R31 (g): both results are bytes, zero-extended. -/
theorem hostless_inv_committed (hp : c.phase = .validate) : (committed c).hostless.Inv := by
  have hbyte (v : Byte) : (BitVec.setWidth 16 v).toNat ≤ 255 := by bv_omega
  have hresults : State.Inv (State.hostless
      { c with
        lastHumidity := BitVec.setWidth 16 (Memory.read c.frame 0)
        lastTemperature := BitVec.setWidth 16 (Memory.read c.frame 2) }) :=
    { h with results := .inr ⟨hbyte _, hbyte _⟩ }
  exact hostless_inv_endAttempt hresults hp true

/-- R98: `LASTSTATE` keeps the parity of the slots. -/
theorem parity_of_transition (hp : c.phase = .scan) (hl : c.ports.lineIn ≠ c.lastState) :
    c.ports.lineIn = decide ((c.slot.toNat + 1) % 2 = 0) := by
  have hlast : c.lastState = decide (c.slot.toNat % 2 = 0) := h.parityInScan hp
  rw [Bool.eq_not_of_ne hl, hlast, ← decide_not]
  exact decide_eq_decide.2 (by omega)

/-- R95 to R97: the next slot, the frame store and `BITCOUNT` being as the operation leaves them. -/
theorem hostless_inv_nextSlot (hp : c.phase = .scan) (hi : c.slot.toNat ≤ 84) (hl : c.ports.lineIn ≠ c.lastState)
    {m : Memory} {b : BitVec 6} (hf : FrameHolds m b.toNat) (hb : b.toNat = min 40 ((c.slot.toNat + 1 - 3) / 2))
    {p : Phase} (hp' : p = .validate ∨ p = .scan ∧ c.slot.toNat ≠ 84) :
    State.Inv (State.hostless
      { c with
        frame := m, bitCount := b, lastState := c.ports.lineIn, counter := 0#8, slot := c.slot + 1#7, phase := p }) := by
  obtain ⟨hdone, htimeout⟩ := not_ended_of_running h (.inr (.inr hp))
  obtain ⟨hoe, hout⟩ := undriven_of_handedOver h (.inl hp)
  have hslot : (c.slot + 1#7).toNat = c.slot.toNat + 1 := by bv_omega
  have hnd : ¬ (p = .driveLow ∨ p = .driveHigh) := by rcases hp' with rfl | ⟨rfl, -⟩ <;> simp
  exact
    { h with
      frameCanonical := hf.canonical
      bitCountLe := hf.countLe
      slotLe := hslot ▸ Nat.succ_le_succ hi
      slotLast := fun (h85 : (c.slot + 1#7).toNat = 85) => hp'.imp id fun h84 => absurd (by omega) h84.2
      counterInScan := fun _ => Nat.zero_le 254
      counterSentinel := nofun
      partialByte := hf.partialByte
      laterBytes := hf.laterBytes
      bitCountOfSlot := show b.toNat = min 40 (((c.slot + 1#7).toNat - 3) / 2) by rw [hslot, hb]
      lineDriven := ⟨fun ho => absurd ho hoe, fun hd => absurd hd hnd⟩
      freshWhileDriven := fun hd => absurd hd hnd
      delayNotZero := fun hd => absurd hd hnd
      delayLow := fun hd => absurd (.inl hd) hnd
      delayHigh := fun hd => absurd (.inr hd) hnd
      parityInScan := fun _ => hslot ▸ parity_of_transition h hp hl
      timedOutLate := fun ht => absurd ht htimeout
      lineOut := show c.lineOut = decide (p ≠ .driveLow) by simpa [hout] using fun hd => hnd (.inl hd)
      doneIdle := fun hd => absurd hd hdone
      readAwaits := nofun }

theorem hostless_inv_transition (hp : c.phase = .scan) (hi : c.slot.toNat ≤ 84) (hl : c.ports.lineIn ≠ c.lastState)
    {m : Memory} {b : BitVec 6} (hf : FrameHolds m b.toNat) (hb : b.toNat = min 40 ((c.slot.toNat + 1 - 3) / 2)) :
    (transition { c with frame := m, bitCount := b }).hostless.Inv := by
  refine hostless_inv_nextSlot h hp hi hl hf hb (p := if c.slot.toNat = 84 then .validate else c.phase) ?_
  by_cases h84 : c.slot.toNat = 84 <;> simp [h84, hp]

/-- R101, R102, R105: no bit is due in the first four slots, in an odd slot, and when 40 bits are in. -/
theorem hostless_inv_skip (hp : c.phase = .scan) (hi : c.slot.toNat ≤ 84) (hl : c.ports.lineIn ≠ c.lastState)
    (hd : c.slot.toNat < 4 ∨ c.slot.toNat % 2 = 1 ∨ c.bitCount.toNat = 40) : (transition c).hostless.Inv := by
  have hb : c.bitCount.toNat = min 40 ((c.slot.toNat - 3) / 2) := h.bitCountOfSlot
  exact hostless_inv_transition h hp hi hl h.frameHolds (show c.bitCount.toNat = _ by omega)

/-- R103, R104: an even slot from 4 on brings the bit that is due. -/
theorem hostless_inv_shifted (hp : c.phase = .scan) (hi : c.slot.toNat ≤ 84) (hl : c.ports.lineIn ≠ c.lastState)
    (hs : 4 ≤ c.slot.toNat) (he : c.slot.toNat % 2 = 0) (hn : c.bitCount.toNat < 40) (b : Bool) :
    (shifted b c).hostless.Inv := by
  have hb : c.bitCount.toNat = min 40 ((c.slot.toNat - 3) / 2) := h.bitCountOfSlot
  have hcount : (c.bitCount + 1#6).toNat = c.bitCount.toNat + 1 := by bv_omega
  have hf : FrameHolds c.frame c.bitCount.toNat := h.frameHolds
  exact hostless_inv_transition h hp hi hl (hcount ▸ hf.append hn b) (by omega)

end

/-- Every clock step keeps the clauses about the block. -/
theorem BlockMove.hostless_inv {c t : State} (hm : BlockMove c t) (h : c.hostless.Inv) : t.hostless.Inv := by
  cases hm with
  | reset => exact (inv_resetOp c).hostless
  | nop => exact hostless_inv_nop h
  | attempt => exact hostless_inv_attempted h c.ports.pin
  | hold => exact h
  | wait _ _ hp hd => exact hostless_inv_wait h hp hd
  | raise _ _ hp => exact hostless_inv_raise h hp
  | release _ _ hp => exact hostless_inv_release h hp
  | count _ _ hp _ _ hc => exact hostless_inv_count h hp hc
  | tmo _ _ hp => exact hostless_inv_tmo h hp
  | skip _ _ hp hi hl _ hd => exact hostless_inv_skip h hp hi hl hd
  | shift _ _ hp hi hl _ hs he hb => exact hostless_inv_shifted h hp hi hl hs he hb _
  | commit _ hp => exact hostless_inv_committed h hp
  | reject _ hp => exact hostless_inv_endAttempt h hp false

/-! ## The host's `READ` (R118) -/

/-- No operation of the block but reset touches the host. -/
theorem BlockMove.host {c t : State} (hm : BlockMove c t) :
    t.host = if c.ports.rst then HostState.quiet else c.host := by
  cases hm with
  | reset hr => simp [hr]
  | nop hr | attempt hr | hold hr | wait hr | raise hr | release hr | count hr | tmo hr | skip hr | shift hr
  | commit hr | reject hr => exact (if_neg (Bool.eq_false_iff.1 hr)).symm

theorem transition_phase_ne_idle {s : State} (h : s.phase ≠ .idle) : (transition s).phase ≠ .idle := by
  rw [transition_phase]
  split
  · nofun
  · exact h

/-- An attempt that is in progress or commanded is in progress after the step, or has just ended. -/
theorem BlockMove.busy_or_done {c t : State} (hm : BlockMove c t) (hr : c.ports.rst = false)
    (hb : c.phase ≠ .idle ∨ c.ports.start = true) : t.phase ≠ .idle ∨ t.done = true := by
  cases hm with
  | reset hr' => simp [hr] at hr'
  | nop _ hp hs => simp [hp, hs] at hb
  | hold _ _ hp => exact .inl (by rcases hp with hp | hp | hp <;> simp [hp])
  | wait _ _ hp => exact .inl (by rcases hp with hp | hp <;> simp [hp])
  | count _ _ hp => exact .inl (by simp [hp])
  | skip _ _ hp | shift _ _ hp => exact .inl (transition_phase_ne_idle (by simp [hp]))
  | attempt | raise | release | tmo => exact .inl nofun
  | commit | reject => exact .inr rfl

theorem hostGive_reading (s : State) (r : ReadProgress) (p : PortsIn) :
    (hostGive s r p).1.reading = some { r with awaiting := !busy s } := by
  unfold hostGive
  cases busy s <;> rfl

@[simp] theorem hostGive_returned (s : State) (r : ReadProgress) (p : PortsIn) :
    (hostGive s r p).1.returned = s.host.returned := by
  unfold hostGive
  cases busy s <;> rfl

@[simp] theorem hostGive_start (s : State) (r : ReadProgress) (p : PortsIn) : (hostGive s r p).2.start = !busy s := by
  unfold hostGive
  cases busy s <;> rfl

/-- Everything the host can do at a clock step: with no `READ` nothing, during one wait for `done`, return, or give an
attempt. -/
theorem hostMove_cases (s : State) (p : PortsIn) :
    (s.host.reading = none ∧ hostMove s p = (s.host, p)) ∨
    (∃ r, s.host.reading = some r ∧
      ((r.awaiting = true ∧ s.done = false ∧ hostMove s p = (s.host, { p with start := false })) ∨
       (r.awaiting = true ∧ s.done = true ∧ (s.ok = true ∨ r.attempts + 1 = 20) ∧
        hostMove s p = hostReturn s s.ok (r.attempts + 1) p) ∨
       (r.awaiting = true ∧ s.done = true ∧ s.ok = false ∧ r.attempts + 1 ≠ 20 ∧
        hostMove s p = hostGive s { r with attempts := r.attempts + 1 } p) ∨
       (r.awaiting = false ∧ hostMove s p = hostGive s r p))) := by
  cases hread : s.host.reading with
  | none => exact .inl ⟨rfl, hostMove_quiet hread p⟩
  | some r =>
    refine .inr ⟨r, rfl, ?_⟩
    cases ha : r.awaiting
    case false => simp [hostMove, hread, ha]
    cases hd : s.done
    case false => simp [hostMove, hread, ha, hd]
    cases ho : s.ok
    case true => simp [hostMove, hread, ha, hd, ho]
    by_cases hn : r.attempts + 1 = 20 <;> simp [hostMove, hread, ha, hd, ho, hn, Config.maxAttempts]

/-- A `READ` in progress after the host's move has finished fewer than 20 attempts, and where it waits for one, that one
is in progress or commanded now. -/
theorem hostMove_reading {s : State} (h : s.Inv) (p : PortsIn) {r : ReadProgress}
    (hr : (hostMove s p).1.reading = some r) :
    r.attempts < 20 ∧ (r.awaiting = true → s.phase ≠ .idle ∨ (hostMove s p).2.start = true) := by
  have give {q : ReadProgress} (hq : q.attempts < 20) (hm : hostMove s p = hostGive s q p) :
      r.attempts < 20 ∧ (r.awaiting = true → s.phase ≠ .idle ∨ (hostMove s p).2.start = true) := by
    rw [hm, hostGive_reading, Option.some_inj] at hr
    subst hr
    rw [hm, hostGive_start]
    exact ⟨hq, .inr⟩
  rcases hostMove_cases s p with ⟨hread, hm⟩ | ⟨q, hread, ⟨-, hd, hm⟩ | ⟨-, -, -, hm⟩ | ⟨-, -, -, hn, hm⟩ | ⟨-, hm⟩⟩
  · simp [hm, hread] at hr
  · rw [hm] at hr
    exact ⟨h.readCount r hr, fun ha => .inl ((h.readAwaits r hr ha).resolve_right (by simp [hd]))⟩
  · simp [hm, hostReturn] at hr
  · exact give (show q.attempts + 1 < 20 by have := h.readCount q hread; omega) hm
  · exact give (h.readCount q hread) hm

theorem hostMove_returned {s : State} (h : s.Inv) (p : PortsIn) {r : ReadResult}
    (hr : (hostMove s p).1.returned = some r) : 1 ≤ r.attempts ∧ r.attempts ≤ 20 := by
  have kept (he : (hostMove s p).1.returned = s.host.returned) : 1 ≤ r.attempts ∧ r.attempts ≤ 20 :=
    h.returnedCount r (he ▸ hr)
  rcases hostMove_cases s p with ⟨-, hm⟩ | ⟨q, hread, ⟨-, -, hm⟩ | ⟨-, -, -, hm⟩ | ⟨-, -, -, -, hm⟩ | ⟨-, hm⟩⟩
  · exact kept (by rw [hm])
  · exact kept (by rw [hm])
  · have hq := h.readCount q hread
    rw [hm, hostReturn, Option.some_inj] at hr
    subst hr
    exact ⟨Nat.succ_pos _, hq⟩
  · exact kept (by rw [hm, hostGive_returned])
  · exact kept (by rw [hm, hostGive_returned])

/-! ## Every step keeps the invariant -/

/-- `READ` begins with no attempt finished (R118); the block does not move. -/
theorem State.Inv.of_readCall {s t : State} {pin : PinId} (h : s.Inv) (ht : exec (.read pin) s = .next t) : t.Inv := by
  injection ht with ht
  subst ht
  have start {r : ReadProgress} (hr : some { pin := pin, attempts := 0, awaiting := false } = some r) :
      r.attempts < 20 ∧ r.awaiting = false := by
    cases hr
    exact ⟨Nat.succ_pos _, rfl⟩
  exact
    { h with
      readCount := fun _ hr => (start hr).1
      readAwaits := fun _ hr ha => absurd ((start hr).2.symm.trans ha) nofun
      returnedCount := nofun }

/-- Without reset the host's clauses hold again once the operation commanded is done. -/
theorem State.Inv.of_blockMove {s t : State} (h : s.Inv) (hm : BlockMove (clockEdge s) t)
    (hr : (clockEdge s).ports.rst = false) : t.Inv := by
  have hhost : t.host = (hostMove s (comingPorts s)).1 := by rw [hm.host, hr]; rfl
  refine .of_hostless (hm.hostless_inv h.clockEdge_hostless) ?_ ?_ ?_ <;> rw [hhost]
  · exact fun r hread => (hostMove_reading h _ hread).1
  · exact fun r hread ha => hm.busy_or_done hr ((hostMove_reading h _ hread).2 ha)
  · exact fun r hret => hostMove_returned h _ hret

/-- Settles O48, by the rule of the operation that the step runs. -/
theorem stepKeepsTheInvariant : Obligations.StepKeepsTheInvariant := by
  intro s t h hst
  cases hd : dueCall s with
  | some pin => exact h.of_readCall ((step_of_call hd).symm.trans hst)
  | none =>
    have hm := blockMove_of_step hd hst
    cases hr : (clockEdge s).ports.rst with
    | false => exact h.of_blockMove hm hr
    | true => exact .of_quiet (hm.hostless_inv h.clockEdge_hostless) (by rw [hm.host, hr]; rfl)

/-! ## The state after reset, the output ports, and what `ATTEMPT` forgets -/

/-- Settles O1: every register of `State.reset` is the literal of R32's table; 0xD8F1 is -9999. -/
theorem resetStateHoldsTheResetValues : Obligations.ResetStateHoldsTheResetValues := by
  have hunset : Config.unset.toInt = -9999 := by decide
  exact ⟨hunset, hunset, rfl, rfl, rfl, rfl, rfl, Memory.read_cleared, rfl, rfl, rfl, BitVec.toNat_zero, rfl, rfl, rfl⟩

/-- Settles O42: `busy` is computed from `PHASE`, every other port is a register. -/
theorem portsShowTheRegisters : Obligations.PortsShowTheRegisters :=
  fun s => ⟨busy_iff s, rfl, rfl, rfl, rfl, rfl, rfl, rfl⟩

/-- Settles O6: the state `ATTEMPT` leaves mentions only the fields the two states agree on. -/
theorem attemptForgetsThePast : Obligations.AttemptForgetsThePast := by
  intro pin s s' hhum htemp hports hscript hedge hhost
  simp only [exec, execAttempt, hhum, htemp, hports, hscript, hedge, hhost]

/-! ## The phases (R17) -/

/-- Settles O37: each rule of the block's clock step fixes the phase before it, its condition and the phase after it. -/
theorem onlyThesePhaseTransitions : Obligations.OnlyThesePhaseTransitions := by
  intro s t hd h
  have hm := blockMove_of_step hd h
  have hphase := clockEdge_phase s
  have hcounter := clockEdge_counter s
  have hlast := clockEdge_lastState s
  have hdelay := clockEdge_delay s
  cases hm with
  | reset hr => simp [hr]
  | nop hr hp hs => simp [hr, hphase ▸ hp, hs]
  | attempt hr hp hs => simp [hr, hphase ▸ hp, hs, attempted]
  | hold hr ht hp => rcases hp with hp | hp | hp <;> simp [hr, ht, hphase ▸ hp]
  | wait hr ht hp hd => rcases hp with hp | hp <;> simp [hr, ht, hphase ▸ hp, hdelay ▸ hd]
  | raise hr ht hp hd => simp [hr, ht, hphase ▸ hp, hdelay ▸ hd]
  | release hr ht hp hd => simp [hr, ht, hphase ▸ hp, hdelay ▸ hd]
  | count hr ht hp hi hl hc =>
    have hne : s.counter.toNat ≠ 254 := by rw [← hcounter]; omega
    simp [hr, ht, hphase ▸ hp, hl, hne]
  | tmo hr ht hp hi hl hc => simp [hr, ht, hphase ▸ hp, hl, hcounter ▸ hc]
  | skip hr ht hp hi hl hc => simp [hr, ht, hphase ▸ hp, hlast ▸ hl]
  | shift hr ht hp hi hl hc => simp [hr, ht, hphase ▸ hp, hlast ▸ hl, shifted]
  | commit hr hp => simp [hr, hphase ▸ hp, committed]
  | reject hr hp => simp [hr, hphase ▸ hp]

/-! ## Who writes which register -/

/-- Settles O38: the frame store stays under each other operation. -/
theorem frameWrittenOnlyByItsWriters : Obligations.FrameWrittenOnlyByItsWriters := by
  intro i s t h hreset hattempt hshift0 hshift1
  have hf : t.frame = s.frame := by
    cases i with
    | reset => exact absurd rfl hreset
    | attempt pin => exact absurd rfl (hattempt pin)
    | shift0 a c => exact absurd rfl (hshift0 a c)
    | shift1 a c => exact absurd rfl (hshift1 a c)
    | _ =>
      injection h with h
      subst h
      rfl
  exact ⟨hf, fun k => by rw [hf]⟩

/-- Settles O39: no other operation mentions the result registers; an append writes to the frame store alone. -/
theorem resultsWrittenOnlyByCommitAndReset : Obligations.ResultsWrittenOnlyByCommitAndReset := by
  intro i s t h hreset hcommit
  cases i with
  | reset => exact absurd rfl hreset
  | commit => exact absurd rfl hcommit
  | shift0 | shift1 =>
    obtain ⟨-, rfl⟩ := shiftOp_next h
    exact ⟨rfl, rfl⟩
  | _ =>
    injection h with h
    subst h
    exact ⟨rfl, rfl⟩

/-- Settles O40: the handshake's three operations write what R24 says, and no other does. -/
theorem lineWrittenOnlyByTheHandshake : Obligations.LineWrittenOnlyByTheHandshake := by
  intro i s t h hreset
  cases i with
  | reset => exact absurd rfl hreset
  | shift0 | shift1 =>
    obtain ⟨-, rfl⟩ := shiftOp_next h
    simp
  | _ =>
    injection h with h
    subst h
    simp

/-- Settles O41: operation by operation, the registers it does not mention; each guard excludes the writers. -/
theorem otherRegistersWrittenOnlyByTheirWriters : Obligations.OtherRegistersWrittenOnlyByTheirWriters := by
  intro i s t h hreset hattempt
  cases i with
  | reset => exact absurd rfl hreset
  | attempt pin => exact absurd rfl (hattempt pin)
  | shift0 | shift1 =>
    obtain ⟨-, rfl⟩ := shiftOp_next h
    simp
  | _ =>
    injection h with h
    subst h
    simp

/-! ## `PIN` is never read (R23) -/

/-- Two answers are the same fault, or next states equal in everything but `PIN`. -/
def SameButPin (a a' : Answer) : Prop :=
  (∀ t, a = .next t → ∃ t', a' = .next t' ∧ { t' with pin := t.pin } = t) ∧ ∀ r, a = .fault r → a' = .fault r

theorem sameButPin_next {t t' : State} (h : { t' with pin := t.pin } = t) : SameButPin (.next t) (.next t') :=
  ⟨fun u hu => ⟨t', rfl, by injection hu with hu; exact hu ▸ h⟩, nofun⟩

theorem sameButPin_fault (r : Fault) : SameButPin (.fault r) (.fault r) :=
  ⟨fun _ h => (by cases h), fun _ h => h⟩

/-- A data slot finds the same room and the same byte. -/
theorem sameButPin_shiftOp (b : Bool) (s : State) (x : PinId) :
    SameButPin (shiftOp b s) (shiftOp b { s with pin := x }) := by
  by_cases hb : s.bitCount.toNat < 40
  · rw [shiftOp_inside b hb, shiftOp_inside (s := { s with pin := x }) b hb]
    exact sameButPin_next rfl
  · rw [shiftOp_outside b (Nat.not_lt.1 hb), shiftOp_outside (s := { s with pin := x }) b (Nat.not_lt.1 hb)]
    exact sameButPin_fault _

theorem sameButPin_exec (i : Instr) (s : State) (x : PinId) : SameButPin (exec i s) (exec i { s with pin := x }) := by
  cases i with
  | shift0 => exact sameButPin_shiftOp false s x
  | shift1 => exact sameButPin_shiftOp true s x
  | _ => exact sameButPin_next rfl

/-- No selection word holds a bit of `PIN`. -/
theorem sameButPin_blockStep (s : State) (x : PinId) : SameButPin (blockStep s) (blockStep { s with pin := x }) := by
  have hsel : selectionWord { s with pin := x } = selectionWord s := rfl
  unfold blockStep
  rw [hsel]
  cases selectionWord s with
  | none => exact sameButPin_next rfl
  | some w =>
    dsimp only
    cases decode w with
    | ok i => exact sameButPin_exec i s x
    | error e => exact sameButPin_fault _

/-- The host looks at no pin identifier of the block's. -/
theorem clockEdge_setPin (s : State) (x : PinId) : clockEdge { s with pin := x } = { clockEdge s with pin := x } := rfl

/-- Settles O44: neither the host's move, nor the selection, nor any operation looks at `PIN`. -/
theorem pinIdentifierIsNeverRead : Obligations.PinIdentifierIsNeverRead := by
  intro s x
  change SameButPin (step s) (step { s with pin := x })
  cases hd : dueCall s with
  | some pin =>
    rw [step_of_call hd, step_of_call (s := { s with pin := x }) hd]
    exact sameButPin_exec (.read pin) s x
  | none =>
    rw [step_of_no_call hd, step_of_no_call (s := { s with pin := x }) hd, clockEdge_setPin]
    exact sameButPin_blockStep (clockEdge s) x

end Sys2Proof.Machine

/-! PROOFS. The frame store and the result registers (spec/20_memory.md R36 to R50). -/

namespace Sys2Proof.Machine

/-! ## The address of the next bit (R37, R43) -/

/-- R37: while fewer than 40 bits are in, the address of the next one exists. -/
theorem bitAddress_lt_frameBytes {c : State} (hb : c.bitCount.toNat < 40) : bitAddress c < Config.frameBytes := by
  unfold bitAddress Config.frameBytes
  omega

/-- Settles O17: both operations append, and an append with 40 or more bits in finds no byte. -/
theorem shiftBeyondTheFrameStops : Obligations.ShiftBeyondTheFrameStops := by
  rintro i c s op (rfl | rfl) hb
  · exact shiftOp_outside false hb
  · exact shiftOp_outside true hb

/-! ## The canonical form of the frame store (log entry 3) -/

/-- A clock step clears the frame store, writes one existing byte, or leaves it alone. -/
theorem BlockMove.wf_frame {c t : State} (hm : BlockMove c t) (h : Memory.wf c.frame = true) :
    Memory.wf t.frame = true := by
  cases hm with
  | reset | attempt => exact Memory.wf_cleared
  | shift _ _ _ _ _ _ _ _ hb => exact Memory.wf_write h (bitAddress_lt_frameBytes hb) _
  | nop | hold | wait | raise | release | count | tmo | skip | commit | reject => exact h

/-- Settles O50: the host's call of `READ` does not touch the frame store, and a clock step keeps its form. -/
theorem frameStaysCanonical : Obligations.FrameStaysCanonical := by
  intro s t h hst
  cases hd : dueCall s with
  | some pin =>
    rw [step_of_call hd] at hst
    injection hst with hst
    exact hst ▸ h
  | none => exact (blockMove_of_step hd hst).wf_frame h

/-! ## The result registers and `OK` (R50) -/

/-- R112: without reset only `COMMIT` writes the result registers, and it is selected in VALIDATE. -/
theorem BlockMove.results {c t : State} (hm : BlockMove c t) (hr : c.ports.rst = false) (hp : c.phase ≠ .validate) :
    t.lastHumidity = c.lastHumidity ∧ t.lastTemperature = c.lastTemperature := by
  cases hm with
  | reset hr' => exact absurd (hr.symm.trans hr') nofun
  | commit _ hp' => exact absurd hp' hp
  | nop | attempt | hold | wait | raise | release | count | tmo | skip | shift | reject => exact ⟨rfl, rfl⟩

/-- R25: without reset `OK` is written where an attempt ends, in VALIDATE, and where one starts, in IDLE with `start`. -/
theorem BlockMove.ok {c t : State} (hm : BlockMove c t) (hr : c.ports.rst = false) (hp : c.phase ≠ .validate)
    (hs : c.phase = .idle → c.ports.start = false) : t.ok = c.ok := by
  cases hm with
  | reset hr' => exact absurd (hr.symm.trans hr') nofun
  | attempt _ hi hs' => exact absurd ((hs hi).symm.trans hs') nofun
  | commit _ hp' | reject _ hp' => exact absurd hp' hp
  | nop | hold | wait | raise | release | count | tmo | skip | shift => rfl

/-- Settles O46, by the operations that write each register and the phases that select them. -/
theorem resultsChangeOnlyAtTheEnd : Obligations.ResultsChangeOnlyAtTheEnd := by
  intro s t hst hd hr
  have hm := blockMove_of_step hd hst
  exact ⟨hm.results hr,
    fun hv hi => hm.ok hr hv fun hi' => absurd hi' hi,
    fun hi hs => hm.ok hr (fun hv => absurd (hi.symm.trans hv) nofun) fun _ => hs⟩

/-! ## No step stops (R43, R63) -/

/-- R31 (b): the slot whose word selects nothing is reached only where the scan has ended. -/
theorem State.Inv.slot_le_of_scan {s : State} (h : s.Inv) (hp : s.phase = .scan) : s.slot.toNat ≤ 84 := by
  have hle := h.slotLe
  have hne : s.slot.toNat ≠ 85 := fun h85 => by simpa [hp] using h.slotLast h85
  omega

/-- R100: the full accumulator selects `DROP`, so that a bit is appended only where there is room. -/
theorem exec_decodeTransition_answers {c : State} (hb : c.bitCount.toNat ≤ 40) (i : BitVec 7) (n : BitVec 8) :
    ∃ t, exec (decodeTransition (decide (c.bitCount.toNat = 40)) i n) c = .next t := by
  rw [decodeTransition_eq]
  split
  case isTrue => exact ⟨_, rfl⟩
  case isFalse =>
  split
  case isTrue => exact ⟨_, rfl⟩
  case isFalse =>
  split
  case isTrue => exact ⟨_, rfl⟩
  case isFalse hfull =>
  have hroom : c.bitCount.toNat < 40 := Nat.lt_of_le_of_ne hb fun h40 => hfull (decide_eq_true h40)
  split
  · exact ⟨_, shiftOp_inside true hroom⟩
  · exact ⟨_, shiftOp_inside false hroom⟩

/-- A tick step of the scan whose SLOT word lies in the ranges of R63 answers. -/
theorem blockStep_scan_answers {c : State} (hr : c.ports.rst = false) (ht : c.ports.tick = true) (hp : c.phase = .scan)
    (hi : c.slot.toNat ≤ 84) (hc : c.counter.toNat ≤ 254) (hb : c.bitCount.toNat ≤ 40) :
    ∃ t, blockStep c = .next t := by
  rw [blockStep_scan hr ht hp hi hc]
  split
  · exact exec_decodeTransition_answers hb _ _
  · split <;> exact ⟨_, rfl⟩

/-- A clock step answers if the SLOT word, where one is formed, lies in the ranges of R63, and at most 40 bits are in. -/
theorem blockStep_answers {c : State} (hscan : c.phase = .scan → c.slot.toNat ≤ 84 ∧ c.counter.toNat ≤ 254)
    (hb : c.bitCount.toNat ≤ 40) : ∃ t, blockStep c = .next t := by
  cases hr : c.ports.rst
  case true => exact ⟨_, blockStep_rst hr⟩
  case false =>
  cases hp : c.phase with
  | idle =>
    rw [blockStep_idle hr hp]
    split <;> exact ⟨_, rfl⟩
  | driveLow =>
    cases ht : c.ports.tick with
    | false => exact ⟨c, blockStep_noTick hr ht (.inl hp)⟩
    | true =>
      rw [blockStep_driveLow hr ht hp]
      split <;> exact ⟨_, rfl⟩
  | driveHigh =>
    cases ht : c.ports.tick with
    | false => exact ⟨c, blockStep_noTick hr ht (.inr (.inl hp))⟩
    | true =>
      rw [blockStep_driveHigh hr ht hp]
      split <;> exact ⟨_, rfl⟩
  | scan =>
    cases ht : c.ports.tick with
    | false => exact ⟨c, blockStep_noTick hr ht (.inr (.inr hp))⟩
    | true =>
      obtain ⟨hi, hc⟩ := hscan hp
      exact blockStep_scan_answers hr ht hp hi hc hb
  | validate =>
    rw [blockStep_validate hr hp]
    split <;> exact ⟨_, rfl⟩

/-- Settles O49: the host's call always answers, and the invariant bounds what a clock step's SLOT word is made of. -/
theorem noStepStopsUnderTheInvariant : Obligations.NoStepStopsUnderTheInvariant := by
  intro s h
  cases hd : dueCall s with
  | some pin => exact ⟨_, step_of_call hd⟩
  | none =>
    rw [step_of_no_call hd]
    exact blockStep_answers (c := clockEdge s) (fun hp => ⟨h.slot_le_of_scan hp, h.counterInScan hp⟩) h.bitCountLe

end Sys2Proof.Machine

/-! PROOFS. The selection words, the decoder and the operation table (spec/30_encoding.md R60 to R64, R78). -/

namespace Sys2Proof

/-! ## The selection of a SLOT word (R63) -/

/-- What a SLOT word selects, row by row of R63: the bits and ranges of the fields, and the answer of the decoder. The
last two rules are the words that select nothing. `SlotSelects.decode_eq` and `slotSelects_decode` tie it to `decode`. -/
inductive SlotSelects (i : BitVec 7) (c : BitVec 8) : Bool → Bool → Except DecodeError Instr → Prop where
  | count {f : Bool} (h : i.toNat ≤ 84 ∧ c.toNat ≤ 253) : SlotSelects i c false f (.ok (.count i c))
  | tmo {f : Bool} (hi : i.toNat ≤ 84) (hc : c.toNat = 254) : SlotSelects i c false f (.ok (.tmo i))
  | skiph {f : Bool} (h : i.toNat ≤ 3 ∧ c.toNat ≤ 254) : SlotSelects i c true f (.ok (.skiph i c))
  | skipm {f : Bool} (h : 5 ≤ i.toNat ∧ i.toNat ≤ 83 ∧ i.toNat % 2 = 1 ∧ c.toNat ≤ 254) :
      SlotSelects i c true f (.ok (.skipm i c))
  | shift0 (h : 4 ≤ i.toNat ∧ i.toNat ≤ 84 ∧ i.toNat % 2 = 0 ∧ c.toNat ≤ 16) :
      SlotSelects i c true false (.ok (.shift0 i c))
  | shift1 (h : 4 ≤ i.toNat ∧ i.toNat ≤ 84 ∧ i.toNat % 2 = 0 ∧ 17 ≤ c.toNat ∧ c.toNat ≤ 254) :
      SlotSelects i c true false (.ok (.shift1 i c))
  | drop (h : 4 ≤ i.toNat ∧ i.toNat ≤ 84 ∧ i.toNat % 2 = 0 ∧ c.toNat ≤ 254) :
      SlotSelects i c true true (.ok (.drop i c))
  | beyondScan {t f : Bool} (hi : 85 ≤ i.toNat) : SlotSelects i c t f (.error .slotBeyondScan)
  | sentinel {t f : Bool} (hi : i.toNat ≤ 84) (hc : c.toNat = 255) : SlotSelects i c t f (.error .countSentinel)

/-- The conditions of R100, in their order, lead to the rows of R63. -/
theorem slotSelects_decodeTransition {i : BitVec 7} {c : BitVec 8} (f : Bool) (hi : i.toNat ≤ 84)
    (hc : c.toNat ≤ 254) : SlotSelects i c true f (.ok (decodeTransition f i c)) := by
  rw [decodeTransition_eq]
  split
  case isTrue h4 => exact .skiph (by omega)
  case isFalse h4 =>
  split
  case isTrue hodd => exact .skipm (by omega)
  case isFalse heven =>
  cases f
  case true => exact .drop (by omega)
  case false =>
  rw [if_neg Bool.false_ne_true]
  split
  case isTrue hbit =>
    rw [bitOf_iff] at hbit
    exact .shift1 (by omega)
  case isFalse hbit =>
    rw [bitOf_iff] at hbit
    exact .shift0 (by omega)

/-- The decoder reads every SLOT word by one of the rules. -/
theorem slotSelects_decode (t f : Bool) (i : BitVec 7) (c : BitVec 8) :
    SlotSelects i c t f (decode (.slot (slotWord t f i c))) := by
  have hc8 := c.isLt
  rw [decode_slotWord]
  split
  case isTrue hi => exact .beyondScan hi
  case isFalse hi =>
  split
  case isTrue hc => exact .sentinel (by omega) (by omega)
  case isFalse hc =>
  cases t
  case true => exact slotSelects_decodeTransition f (by omega) (by omega)
  case false =>
  rw [if_neg Bool.false_ne_true]
  split
  case isTrue h254 => exact .tmo (by omega) h254
  case isFalse h254 => exact .count (by omega)

/-- Each rule is what the decoder answers: the rules exclude each other. -/
theorem SlotSelects.decode_eq {i : BitVec 7} {c : BitVec 8} {t f : Bool} {r : Except DecodeError Instr}
    (h : SlotSelects i c t f r) : decode (.slot (slotWord t f i c)) = r := by
  have transition (hi : i.toNat ≤ 84) (hc : c.toNat ≤ 254) :
      decode (.slot (slotWord true f i c)) = .ok (decodeTransition f i c) := by
    rw [decode_slotWord, if_neg (by omega), if_neg (by omega), if_pos rfl]
  cases h with
  | count h =>
    rw [decode_slotWord, if_neg (by omega), if_neg (by omega), if_neg Bool.false_ne_true, if_neg (by omega)]
  | tmo hi hc =>
    rw [decode_slotWord, if_neg (by omega), if_neg (by omega), if_neg Bool.false_ne_true, if_pos hc]
  | skiph h => rw [transition (by omega) (by omega), decodeTransition_eq, if_pos (by omega)]
  | skipm h => rw [transition (by omega) (by omega), decodeTransition_eq, if_neg (by omega), if_pos (by omega)]
  | shift0 h =>
    rw [transition (by omega) (by omega), decodeTransition_eq, if_neg (by omega), if_neg (by omega),
      if_neg Bool.false_ne_true, if_neg (by rw [bitOf_iff]; omega)]
  | shift1 h =>
    rw [transition (by omega) (by omega), decodeTransition_eq, if_neg (by omega), if_neg (by omega),
      if_neg Bool.false_ne_true, if_pos ((bitOf_iff c).2 (by omega))]
  | drop h =>
    rw [transition (by omega) (by omega), decodeTransition_eq, if_neg (by omega), if_neg (by omega), if_pos rfl]
  | beyondScan hi => rw [decode_slotWord, if_pos hi]
  | sentinel hi hc => rw [decode_slotWord, if_neg (by omega), if_pos (by omega)]

/-! ## Every selection word is made of its fields -/

/-- Case analysis over the selection words, format by format, in terms of the fields (R60 to R64). -/
theorem SelWord.cases_fields {motive : SelWord → Prop} (noReset : motive (.rst 0#1)) (reset : motive (.rst 1#1))
    (cmd : ∀ b p, motive (.cmd (cmdWord b p))) (seq : ∀ p l, motive (.seq (seqWord p l)))
    (slot : ∀ t f i c, motive (.slot (slotWord t f i c))) (val : ∀ n e, motive (.val (valWord n e)))
    (pseudo : ∀ pin, motive (.pseudo pin)) (w : SelWord) : motive w := by
  cases w with
  | rst w =>
    have hw : w = 0#1 ∨ w = 1#1 := by revert w; decide
    rcases hw with rfl | rfl
    · exact noReset
    · exact reset
  | cmd w => exact cmdWord_fields w ▸ cmd _ _
  | seq w => exact Machine.seqWord_fields w ▸ seq _ _
  | slot w => exact slotWord_fields w ▸ slot _ _ _ _
  | val w => exact Machine.valWord_fields w ▸ val _ _
  | pseudo pin => exact pseudo pin

/-! ## Decoder and encoder -/

/-- Settles O33: the word of each row's pattern decodes to the operation; for a SLOT row the constraints of the row are
the premise of its rule. -/
theorem decodeOfEncodeIsTheOperation : Obligations.DecodeOfEncodeIsTheOperation := by
  intro op hw
  cases op with
  | reset | read => rfl
  | nop | attempt => exact decode_cmdWord _ _
  | wait | raise | release => exact decode_seqWord _ _
  | count i c => exact (SlotSelects.count ((wellFormed_count i c).1 hw)).decode_eq
  | tmo i => exact (SlotSelects.tmo ((wellFormed_tmo i).1 hw) rfl).decode_eq
  | skiph i c => exact (SlotSelects.skiph ((wellFormed_skiph i c).1 hw)).decode_eq
  | skipm i c => exact (SlotSelects.skipm ((wellFormed_skipm i c).1 hw)).decode_eq
  | shift0 i c => exact (SlotSelects.shift0 ((wellFormed_shift0 i c).1 hw)).decode_eq
  | shift1 i c => exact (SlotSelects.shift1 ((wellFormed_shift1 i c).1 hw)).decode_eq
  | drop i c => exact (SlotSelects.drop ((wellFormed_drop i c).1 hw)).decode_eq
  | commit => exact decode_valWord _ _
  | reject n e =>
    refine (decode_valWord n e).trans ?_
    rw [if_neg (by simpa [wellFormed_reject] using hw)]

/-- Each rule of the SLOT selection is the constraint of its row. -/
theorem SlotSelects.wellFormed {i : BitVec 7} {c : BitVec 8} {t f : Bool} {op : Instr}
    (h : SlotSelects i c t f (.ok op)) : op.wellFormed = true := by
  cases h with
  | count h => exact (wellFormed_count i c).2 h
  | tmo hi => exact (wellFormed_tmo i).2 hi
  | skiph h => exact (wellFormed_skiph i c).2 h
  | skipm h => exact (wellFormed_skipm i c).2 h
  | shift0 h => exact (wellFormed_shift0 i c).2 h
  | shift1 h => exact (wellFormed_shift1 i c).2 h
  | drop h => exact (wellFormed_drop i c).2 h

/-- Settles O34: the other formats put a constraint on `REJECT` alone, whose word is not the one of `COMMIT`. -/
theorem decodedOperationsAreWellFormed : Obligations.DecodedOperationsAreWellFormed := by
  intro w op h
  cases w using SelWord.cases_fields with
  | noReset => cases h
  | reset | pseudo => cases h; rfl
  | cmd b p => rw [decode_cmdWord] at h; cases h; cases b <;> rfl
  | seq p l => rw [decode_seqWord] at h; cases h; cases p <;> cases l <;> rfl
  | slot t f i c => exact SlotSelects.wellFormed (h ▸ slotSelects_decode t f i c)
  | val n e => rw [decode_valWord] at h; cases h; cases n <;> cases e <;> rfl

/-! ## The operation table -/

/-- The names of the rows that an answer of the decoder stands for: the operation's row, or none. -/
def selectedNames : Except DecodeError Instr → List String
  | .ok op => [op.mnemonic]
  | .error _ => []

/-- The fields of a CMD word as numbers. -/
theorem cmd_bits (b : Bool) (p : PinId) :
    bitsOf 8 8 (cmdWord b p).toNat = b.toNat ∧ bitsOf 7 0 (cmdWord b p).toNat = p.toNat := by
  have hb := b.toNat_lt
  have hp := p.isLt
  rw [cmdWord_toNat]
  unfold bitsOf
  omega

/-- R60: the bit `start` tells the two rows of the format CMD apart, and every pin is in range. -/
theorem rowsSelecting_cmd (b : Bool) (p : PinId) :
    rowsSelecting (.cmd (cmdWord b p)) = [(if b then Instr.attempt p else .nop).mnemonic] := by
  have hp : p.toNat ≤ 255 := Nat.le_of_lt_succ p.isLt
  cases b <;>
    simp [rowsSelecting, opcodeTable, SelWord.format, SelWord.value, Row.accepts, FieldRow.accepts, inRange, cmd_bits,
      hp, Instr.mnemonic]

/-- R75: the one row of the host's pseudo-operation takes every pin. -/
theorem rowsSelecting_pseudo (p : PinId) : rowsSelecting (.pseudo p) = ["READ"] := by
  have hp : bitsOf 7 0 p.toNat ≤ 255 := by unfold bitsOf; omega
  simp [rowsSelecting, opcodeTable, SelWord.format, SelWord.value, Row.accepts, FieldRow.accepts, inRange, hp]

/-- The rows of the format SLOT stand in the table from `COUNT` to `DROP`. -/
theorem rowsSelecting_slot_eq (w : BitVec 17) :
    rowsSelecting (.slot w) =
      (((opcodeTable.drop 6).take 7).filter fun r => r.accepts w.toNat).map Row.mnemonic := rfl

/-- One row of the table after the other. -/
theorem mnemonics_filter_cons (p : Row → Bool) (r : Row) (rs : List Row) :
    ((r :: rs).filter p).map Row.mnemonic =
      (if p r then [r.mnemonic] else []) ++ (rs.filter p).map Row.mnemonic := by
  rw [List.filter_cons]
  split <;> rfl

/-- R63: under each rule of the selection the fields meet the constraints of the operation's row and of no other row,
and of no row where nothing is selected. -/
theorem SlotSelects.rowsSelecting_eq {i : BitVec 7} {c : BitVec 8} {t f : Bool} {r : Except DecodeError Instr}
    (h : SlotSelects i c t f r) : rowsSelecting (.slot (slotWord t f i c)) = selectedNames r := by
  have hf := f.toNat_lt
  rw [rowsSelecting_slot_eq]
  simp only [opcodeTable, List.drop, List.take, mnemonics_filter_cons, List.filter_nil, List.map_nil, List.append_nil,
    Row.accepts, FieldRow.accepts, inRange, Laws.EncodeMatchesRow.slot_bits, List.all_cons, List.all_nil,
    List.contains_nil, Bool.not_false, Bool.and_eq_true, decide_eq_true_iff, and_true]
  cases h <;>
    simp (disch := omega) only [Bool.toNat_true, Bool.toNat_false, if_pos, if_neg, List.nil_append, List.append_nil,
      selectedNames, Instr.mnemonic]

/-- Settles O32, format by format; the formats RST, SEQ and VAL have ten words together. -/
theorem tableSelectsTheDecodedRow : Obligations.TableSelectsTheDecodedRow := by
  intro w
  change rowsSelecting w = selectedNames (decode w)
  cases w using SelWord.cases_fields with
  | noReset | reset => rfl
  | cmd b p => exact (rowsSelecting_cmd b p).trans (congrArg selectedNames (decode_cmdWord b p)).symm
  | seq p l => cases p <;> cases l <;> rfl
  | slot t f i c => exact (slotSelects_decode t f i c).rowsSelecting_eq
  | val n e => cases n <;> cases e <;> rfl
  | pseudo pin => exact rowsSelecting_pseudo pin

end Sys2Proof

namespace Sys2Proof.Machine

/-! ## The words formed at a clock step (R60 to R64) -/

/-- R114: the checksum bit of the VAL word. -/
theorem checksumEqual_eq (s : State) :
    checksumEqual s = decide ((Memory.read s.frame 4).toNat = ((Memory.read s.frame 0).toNat
      + (Memory.read s.frame 1).toNat + (Memory.read s.frame 2).toNat + (Memory.read s.frame 3).toNat) % 256) :=
  Bool.eq_iff_iff.2 ((checksumEqual_iff s).trans decide_eq_true_iff.symm)

theorem selectionWord_idle {s : State} (hr : s.ports.rst = false) (hp : s.phase = .idle) :
    selectionWord s = some (.cmd (cmdOf s)) := by
  simp [selectionWord, hr, hp]

theorem selectionWord_validate {s : State} (hr : s.ports.rst = false) (hp : s.phase = .validate) :
    selectionWord s = some (.val (valOf s)) := by
  simp [selectionWord, hr, hp]

theorem selectionWord_driven {s : State} (hr : s.ports.rst = false)
    (hp : s.phase = .driveLow ∨ s.phase = .driveHigh) :
    selectionWord s = if s.ports.tick then some (.seq (seqOf s)) else none := by
  rcases hp with hp | hp <;> simp [selectionWord, hr, hp]

theorem selectionWord_scan {s : State} (hr : s.ports.rst = false) (hp : s.phase = .scan) :
    selectionWord s = if s.ports.tick then some (.slot (slotOf s)) else none := by
  simp [selectionWord, hr, hp]

/-- Settles O30: what the words of the three formats decode to, their fields, and the phase of each format. -/
theorem commandHandshakeAndValidateWords : Obligations.CommandHandshakeAndValidateWords := by
  refine ⟨fun pin => ⟨decode_cmdWord true pin, decode_cmdWord false pin⟩, fun p => decode_seqWord p false,
    decode_seqWord false true, decode_seqWord true true, decode_valWord true true, fun n e hne => ?_,
    fun s => ⟨rfl, rfl, ?_⟩, fun s hr => ⟨selectionWord_idle hr, selectionWord_validate hr, selectionWord_driven hr,
      selectionWord_scan hr⟩⟩
  · exact (decode_valWord n e).trans (by rw [hne, if_neg Bool.false_ne_true])
  · exact congrArg (valWord (enoughBits s)) (checksumEqual_eq s)

/-- R31 (e): under the invariant the accumulator is full from slot 83 on. -/
theorem State.Inv.bitCount_eq_iff {s : State} (h : s.Inv) : s.bitCount.toNat = 40 ↔ 83 ≤ s.slot.toNat := by
  have he := h.bitCountOfSlot
  omega

/-- Settles O31: the word and its step, the ranges the invariant gives, and the rows by the rules of `SlotSelects`. -/
theorem slotWordsSelectOneOfSeven : Obligations.SlotWordsSelectOneOfSeven := by
  refine ⟨fun s => rfl, fun s hr hp ht => ?_,
    fun s h hp => ⟨h.slot_le_of_scan hp, h.counterInScan hp, h.bitCount_eq_iff⟩,
    fun f i c => ⟨fun hi hc => (SlotSelects.count ⟨hi, hc⟩).decode_eq, fun hi hc => (SlotSelects.tmo hi hc).decode_eq,
      fun hi hc => (SlotSelects.skiph ⟨hi, hc⟩).decode_eq,
      fun hlo hhi ho hc => (SlotSelects.skipm ⟨hlo, hhi, ho, hc⟩).decode_eq,
      fun hlo hhi he hc => (SlotSelects.shift0 ⟨hlo, hhi, he, hc⟩).decode_eq,
      fun hlo hhi he hc hc' => (SlotSelects.shift1 ⟨hlo, hhi, he, hc, hc'⟩).decode_eq,
      fun hlo hhi he hc => (SlotSelects.drop ⟨hlo, hhi, he, hc⟩).decode_eq, fun hn t op hop => ?_⟩⟩
  · rw [selectionWord_scan hr hp, if_pos ht]
  · have hs := slotSelects_decode t f i c
    rw [hop] at hs
    cases hs <;> omega

/-! ## The step runs the word (R61) -/

theorem blockStep_of_selected {s : State} {w : SelWord} {i : Instr} (hw : selectionWord s = some w)
    (hi : decode w = .ok i) : blockStep s = exec i s := by
  simp [blockStep, hw, hi]

/-- Settles O28: the two branches of `step`. -/
theorem stepRunsTheSelectedOperation : Obligations.StepRunsTheSelectedOperation :=
  ⟨fun _ _ _ hd hw hi => (step_of_no_call hd).trans (blockStep_of_selected hw hi), fun _ _ hd => step_of_call hd⟩

/-- Settles O20: the clock step forms a SLOT word that selects no row. -/
theorem unselectableWordStops : Obligations.UnselectableWordStops :=
  fun s hd hr hp ht h =>
    (step_of_no_call hd).trans (blockStep_scan_none (s := clockEdge s) hr ht hp (h.imp_right Eq.ge))

theorem decodeTableWord_eq_some {nbits w : Nat} {i : Instr} (h : decodeTableWord nbits w = some i) :
    ∃ sw, tableWord nbits w = some sw ∧ decode sw = .ok i := by
  unfold decodeTableWord at h
  split at h
  case h_1 => cases h
  case h_2 sw hsw =>
  split at h
  case h_1 j hj => exact ⟨sw, hsw, hj.trans (congrArg _ (Option.some.inj h))⟩
  case h_2 => cases h

/-- Only the empty word is the host's. -/
theorem tableWord_ne_pseudo {nbits w : Nat} {sw : SelWord} (hn : nbits ≠ 0) (h : tableWord nbits w = some sw)
    (pin : PinId) : sw ≠ .pseudo pin := by
  rintro rfl
  unfold tableWord at h
  rw [if_neg hn] at h
  split_ifs at h <;> cases h

/-- Settles O36: the host's `READ` is due at once, and any other word is the one that the state with it put in place
forms at its next clock step. -/
theorem fetchWordIsTheNextOperation : Obligations.FetchWordIsTheNextOperation := by
  intro s nbits w i h
  obtain ⟨sw, hsw, hi⟩ := decodeTableWord_eq_some h
  have hs : s.withFetchWord nbits w = s.selecting sw := by rw [State.withFetchWord, hsw]
  rw [hs]
  constructor
  · rintro rfl
    cases hsw
    cases hi
    exact step_of_call rfl
  · intro hn
    have hp := tableWord_ne_pseudo hn hsw
    have hr : sw ≠ .rst 0#1 := by rintro rfl; cases hi
    exact stepRunsTheSelectedOperation.1 _ sw i (dueCall_selecting s hp) (selectionWord_selecting s hp hr) hi

end Sys2Proof.Machine

/-! PROOFS. Reset and the host's commands (spec/40_commands.md R80 to R84). -/

namespace Sys2Proof.Machine

/-! ## Reset (R82) -/

/-- R61: `rst` wins at a clock step in any phase. -/
theorem step_of_rst {s : State} (hd : dueCall s = none) (hr : (clockEdge s).ports.rst = true) :
    step s = .next (resetOp (clockEdge s)) :=
  (step_of_no_call hd).trans (blockStep_rst hr)

/-- Settles O2: the state `RESET` leaves is `State.reset`, whose values O1 lists, but for the input side. -/
theorem resetFromAnyState : Obligations.ResetFromAnyState := by
  obtain ⟨hhum, htemp, hphase, hok, hdone, hoe, hout, hframe, hbits, hslot, hcount, hdelay, hpin, htmo, hlast⟩ :=
    resetStateHoldsTheResetValues
  exact ⟨fun s => ⟨resetOp s, rfl, hhum, htemp, hphase, hok, hdone, htmo, hoe, hout, hframe, hbits, hslot, hcount,
    hdelay, hpin, hlast, resetOp_ports s, resetOp_script s, resetOp_edge s⟩, fun _ => step_of_rst⟩

/-- Settles O3: the state that the step answers has the quiet host of `State.reset`. -/
theorem resetEndsTheHostsRead : Obligations.ResetEndsTheHostsRead := by
  intro s t hd hr hst
  rw [(blockMove_of_step hd hst).host, if_pos hr]

/-! ## Commands in IDLE (R80, R81) -/

/-- R60: the command a clock step in IDLE runs. -/
theorem step_of_idle {s : State} (hd : dueCall s = none) (hr : (clockEdge s).ports.rst = false)
    (hp : s.phase = .idle) :
    step s = exec (if (clockEdge s).ports.start then .attempt (clockEdge s).ports.pin else .nop) (clockEdge s) :=
  (step_of_no_call hd).trans (blockStep_idle hr hp)

/-- Settles O4: the state `ATTEMPT` leaves is `attempted`, whose frame store is empty and whose `DELAY` is exact. -/
theorem attemptStartsOneRead : Obligations.AttemptStartsOneRead := by
  refine ⟨fun pin s => ⟨attempted pin s, rfl, Memory.read_cleared, delayOf_settleTicks, rfl⟩,
    fun s hd hr hp hs => ?_⟩
  rw [step_of_idle hd hr hp, if_pos hs]

/-- Settles O5: `NOP` writes `DONE` alone, and CMD with `start` = 0 selects it. -/
theorem nopOnlyEndsTheDonePulse : Obligations.NopOnlyEndsTheDonePulse := by
  refine ⟨fun s => rfl, fun s hd hr hp hs => ?_⟩
  rw [step_of_idle hd hr hp, if_neg (Bool.eq_false_iff.1 hs)]

/-! ## Commands in the other phases (R83) -/

/-- The state with another command on the ports. -/
def State.setCommand (start : Bool) (pin : PinId) (s : State) : State :=
  { s with ports := { s.ports with start := start, pin := pin } }

@[simp] theorem setCommand_phase (b : Bool) (x : PinId) (s : State) : (s.setCommand b x).phase = s.phase := rfl

/-- An answer with its next state changed. -/
def mapNext (f : State → State) : Answer → Answer
  | .next t => .next (f t)
  | .fault r => .fault r
  | .refused r => .refused r

/-- A data slot finds the same room, the same byte and the same sample. -/
theorem shiftOp_setCommand (bit b : Bool) (x : PinId) (c : State) :
    shiftOp bit (c.setCommand b x) = mapNext (State.setCommand b x) (shiftOp bit c) := by
  by_cases hb : c.bitCount.toNat < 40
  · rw [shiftOp_inside bit hb, shiftOp_inside (s := c.setCommand b x) bit hb]
    rfl
  · rw [shiftOp_outside bit (Nat.not_lt.1 hb), shiftOp_outside (s := c.setCommand b x) bit (Nat.not_lt.1 hb)]
    rfl

/-- R83: no operation reads the ports `start` and `pin`; `ATTEMPT` has its pin as operand. -/
theorem exec_setCommand (i : Instr) (b : Bool) (x : PinId) (c : State) :
    exec i (c.setCommand b x) = mapNext (State.setCommand b x) (exec i c) := by
  cases i with
  | shift0 => exact shiftOp_setCommand false b x c
  | shift1 => exact shiftOp_setCommand true b x c
  | _ => rfl

/-- R60 to R64: only the CMD word, formed in IDLE, holds `start` and `pin`. -/
theorem selectionWord_setCommand (b : Bool) (x : PinId) {c : State} (hp : c.phase ≠ .idle) :
    selectionWord (c.setCommand b x) = selectionWord c := by
  cases hph : c.phase with
  | idle => exact absurd hph hp
  | driveLow | driveHigh | scan | validate =>
    simp only [selectionWord, setCommand_phase, hph]
    rfl

/-- R83 on the block: outside IDLE the command on the ports is ignored. -/
theorem blockStep_setCommand (b : Bool) (x : PinId) {c : State} (hp : c.phase ≠ .idle) :
    blockStep (c.setCommand b x) = mapNext (State.setCommand b x) (blockStep c) := by
  unfold blockStep
  rw [selectionWord_setCommand b x hp]
  cases selectionWord c with
  | none => rfl
  | some w =>
    dsimp only
    cases decode w with
    | ok i => exact exec_setCommand i b x c
    | error e => rfl

/-- The host's part of its move does not look at the port values that come. -/
theorem hostMove_host (s : State) (p p' : PortsIn) : (hostMove s p').1 = (hostMove s p).1 := by
  unfold hostMove hostGive hostReturn
  repeat' split
  all_goals rfl

/-- Port values equal in the other three ports differ in the command. -/
theorem ports_eq_setCommand {p q : PortsIn} (hr : q.rst = p.rst) (ht : q.tick = p.tick) (hl : q.lineIn = p.lineIn) :
    q = { p with start := q.start, pin := q.pin } := by
  cases q
  cases hr
  cases ht
  cases hl
  rfl

/-- Rising edges at which another command comes differ in the command presented. -/
theorem clockEdge_setCommand (s : State) {p p' : PortsIn} (rest : List PortsIn) (hr : p'.rst = p.rst)
    (ht : p'.tick = p.tick) (hl : p'.lineIn = p.lineIn) :
    clockEdge { s with script := p' :: rest } =
      (clockEdge { s with script := p :: rest }).setCommand (hostMove s p').2.start (hostMove s p').2.pin := by
  have hmove (q : PortsIn) : hostMove { s with script := q :: rest } q = hostMove s q :=
    hostMove_congr rfl rfl rfl rfl rfl rfl q
  have hports := ports_eq_setCommand (p := (hostMove s p).2) (q := (hostMove s p').2) (by simp [hr]) (by simp [ht])
    (by simp [hl])
  simp only [clockEdge, comingPorts, State.setCommand, hmove, hostMove_host s p p', List.tail_cons, ← hports]

/-- R83: outside IDLE a clock step at which another command comes answers the same but for the ports. -/
theorem step_setCommand {s : State} {p p' : PortsIn} (rest : List PortsIn) (hp : s.phase ≠ .idle)
    (hd : dueCall s = none) (hr : p'.rst = p.rst) (ht : p'.tick = p.tick) (hl : p'.lineIn = p.lineIn) :
    step { s with script := p' :: rest } =
      mapNext (State.setCommand (hostMove s p').2.start (hostMove s p').2.pin)
        (step { s with script := p :: rest }) := by
  rw [step_of_no_call (s := { s with script := p' :: rest }) hd,
    step_of_no_call (s := { s with script := p :: rest }) hd, clockEdge_setCommand s rest hr ht hl]
  exact blockStep_setCommand _ _ hp

/-- R17: without reset an attempt is left from VALIDATE alone. -/
theorem phase_ne_idle_of_step {s t : State} (hi : s.phase ≠ .idle) (hv : s.phase ≠ .validate)
    (hd : dueCall s = none) (hr : (clockEdge s).ports.rst = false) (hst : step s = .next t) : t.phase ≠ .idle := by
  obtain ⟨-, hlow, hhigh, hscan, -⟩ := (onlyThesePhaseTransitions s t hd hst).2 hr
  cases hp : s.phase with
  | idle => exact absurd hp hi
  | validate => exact absurd hp hv
  | driveLow => rw [hlow hp]; split <;> nofun
  | driveHigh => rw [hhigh hp]; split <;> nofun
  | scan => rw [hscan hp]; split <;> nofun

/-- Settles O43: the second run answers what the first does with its own command presented, and R17's table has no other
way to IDLE. -/
theorem commandsWhileBusyAreIgnored : Obligations.CommandsWhileBusyAreIgnored := by
  refine ⟨fun s p p' rest hp hd hr ht hl => ?_, fun s t => phase_ne_idle_of_step⟩
  rw [step_setCommand rest hp hd hr ht hl]
  exact ⟨fun t hst => ⟨_, congrArg (mapNext _) hst, rfl⟩, fun r hst => congrArg (mapNext _) hst⟩

/-! ## The `done` pulse (R84, R26) -/

/-- R26: a clock step of the block from a state whose pulse, if it is up, stands in IDLE. -/
theorem BlockMove.done_iff {c t : State} (hm : BlockMove c t) (hd : c.done = true → c.phase = .idle) :
    t.done = true ↔ c.phase = .validate ∧ c.ports.rst = false := by
  have down (hp : c.phase = .driveLow ∨ c.phase = .driveHigh ∨ c.phase = .scan) (ht : t.done = c.done) :
      t.done = true ↔ c.phase = .validate ∧ c.ports.rst = false := by
    rw [ht]
    rcases hp with hp | hp | hp <;> simpa [hp] using hd
  cases hm with
  | reset hr => simp [hr]
  | nop _ hp => simp [hp]
  | attempt _ hp => simp [hp, attempted]
  | hold _ _ hp => exact down hp rfl
  | wait _ _ hp => exact down (hp.imp_right .inl) rfl
  | raise _ _ hp => exact down (.inl hp) rfl
  | release _ _ hp => exact down (.inr (.inl hp)) rfl
  | count _ _ hp | tmo _ _ hp | skip _ _ hp | shift _ _ hp => exact down (.inr (.inr hp)) rfl
  | commit hr hp => simp [hr, hp, committed]
  | reject hr hp => simp [hr, hp]

/-- Settles O45: R26's clause of the invariant is the premise of `BlockMove.done_iff`. -/
theorem oneDonePulseEndsAnAttempt : Obligations.OneDonePulseEndsAnAttempt :=
  fun _ _ h hd hst => (blockMove_of_step hd hst).done_iff h.doneIdle

end Sys2Proof.Machine

/-! PROOFS. The wake-up handshake (spec/41_wakeup_handshake.md R86 to R90) and its wire (spec/70_reset_and_hazards.md
R143, R147). -/

namespace Sys2Proof.Machine

/-! ## The operation a tick step of a driven phase runs (R62, R88 to R90) -/

section
variable {s : State} (hd : dueCall s = none) (hr : (clockEdge s).ports.rst = false)
  (ht : (clockEdge s).ports.tick = true)
include hd hr ht

theorem step_of_wait (hp : s.phase = .driveLow ∨ s.phase = .driveHigh) (h1 : s.delay.toNat ≠ 1) :
    step s = exec .wait (clockEdge s) := by
  rw [step_of_no_call hd]
  rcases hp with hp | hp
  · rw [blockStep_driveLow hr ht hp, clockEdge_delay, if_neg h1]
  · rw [blockStep_driveHigh hr ht hp, clockEdge_delay, if_neg h1]

theorem step_of_raise (hp : s.phase = .driveLow) (h1 : s.delay.toNat = 1) : step s = exec .raise (clockEdge s) := by
  rw [step_of_no_call hd, blockStep_driveLow hr ht hp, clockEdge_delay, if_pos h1]

theorem step_of_release (hp : s.phase = .driveHigh) (h1 : s.delay.toNat = 1) :
    step s = exec .release (clockEdge s) := by
  rw [step_of_no_call hd, blockStep_driveHigh hr ht hp, clockEdge_delay, if_pos h1]

end

/-- Settles O7: `WAIT` counts down exactly where `DELAY` is not 0, and SEQ with `l` = 0 selects it. -/
theorem waitLetsOneTickGoBy : Obligations.WaitLetsOneTickGoBy :=
  ⟨fun _ h0 => ⟨_, rfl, delayDown_of_ne_zero h0, rfl⟩,
    fun _ hd hr hp ht h1 => step_of_wait hd hr ht hp h1,
    fun _ hd hr hp ht => step_of_no_tick hd hr ht (hp.imp_right .inl),
    fun _ h hp => Nat.one_le_iff_ne_zero.1 (h.delayNotZero hp)⟩

/-- Settles O8: at 0 the register wraps. -/
theorem waitAtZeroWraps : Obligations.WaitAtZeroWraps := fun _ h0 => ⟨_, rfl, delayDown_of_zero h0, rfl⟩

/-- Settles O10: `RELEASE_TICKS` fits `DELAY`, and SEQ 01 selects `RAISE`. -/
theorem raiseDrivesTheWireHigh : Obligations.RaiseDrivesTheWireHigh :=
  ⟨fun _ => ⟨_, rfl, delayOf_releaseTicks, rfl⟩, fun _ hd hr hp ht h1 => step_of_raise hd hr ht hp h1⟩

/-! ## What the invariant says of the wire and of the frame store (R24, R31 (d), (f)) -/

/-- With no bit in, every byte reads 0: byte 0 is below 2^0, and the others are not begun. -/
theorem FrameHolds.read_eq_zero {m : Memory} (h : FrameHolds m 0) (k : Nat) : Memory.read m k = 0#8 := by
  cases k with
  | zero =>
    have hlt : (Memory.read m 0).toNat < 1 := h.partialByte (by decide)
    exact BitVec.eq_of_toNat_eq (Nat.lt_one_iff.1 hlt)
  | succ k => exact h.laterBytes (k + 1) (Nat.succ_pos k)

theorem State.Inv.line_of_driveLow {s : State} (h : s.Inv) (hp : s.phase = .driveLow) :
    s.lineOe = true ∧ s.lineOut = false :=
  ⟨h.lineDriven.2 (.inl hp), by simp [h.lineOut, hp]⟩

theorem State.Inv.line_of_driveHigh {s : State} (h : s.Inv) (hp : s.phase = .driveHigh) :
    s.lineOe = true ∧ s.lineOut = true :=
  ⟨h.lineDriven.2 (.inr hp), by simp [h.lineOut, hp]⟩

theorem State.Inv.lineOe_of_scan {s : State} (h : s.Inv) (hp : s.phase = .scan) : s.lineOe = false :=
  Bool.eq_false_iff.2 fun ho => by simpa [hp] using h.lineDriven.1 ho

/-- Settles O11: SEQ 11 selects `RELEASE`, and the invariant keeps what `ATTEMPT` set until then. -/
theorem releaseHandsTheWireOver : Obligations.ReleaseHandsTheWireOver := by
  refine ⟨fun _ => rfl, fun s hd hr hp ht h1 => step_of_release hd hr ht hp h1, fun s h hp => ?_⟩
  obtain ⟨hslot, hcounter, hbits, hlast⟩ := h.freshWhileDriven (.inr hp)
  have hframe : FrameHolds s.frame 0 := by simpa [hbits] using h.frameHolds
  exact ⟨(h.line_of_driveHigh hp).2, hslot, hcounter, hlast, hbits, hframe.read_eq_zero⟩

/-! ## The course of the handshake (R86, R87)

The handshake is a count-down: `ticksToScan` is the number of tick steps until the scan begins, and each tick step takes
one from it. Under the invariant it tells the phase, and so what the wire is driven to. -/

/-- The tick steps from a state of the handshake to the scan: `DELAY` of them in the present phase, and
`RELEASE_TICKS` more from DRIVE_LOW. -/
def ticksToScan (s : State) : Nat :=
  match s.phase with
  | .driveLow => s.delay.toNat + Config.releaseTicks
  | .driveHigh => s.delay.toNat
  | _ => 0

theorem ticksToScan_of_driveLow {s : State} (hp : s.phase = .driveLow) :
    ticksToScan s = s.delay.toNat + Config.releaseTicks := by
  simp [ticksToScan, hp]

theorem ticksToScan_of_driveHigh {s : State} (hp : s.phase = .driveHigh) : ticksToScan s = s.delay.toNat := by
  simp [ticksToScan, hp]

theorem ticksToScan_of_scan {s : State} (hp : s.phase = .scan) : ticksToScan s = 0 := by
  simp [ticksToScan, hp]

/-- `s` with the registers that the handshake's operations write (R88 to R90), and the input side, taken from `t`. -/
def State.withHandshakeOf (s t : State) : State :=
  { s with
    phase := t.phase
    delay := t.delay
    lineOe := t.lineOe
    lineOut := t.lineOut
    ports := t.ports
    script := t.script
    edge := t.edge }

/-- `t` is a state of the handshake, or the scan's first one, in which `n` tick steps fewer are left than in `s`; the
registers that the handshake does not write, and the host, are those of `s`. -/
structure HandshakeTo (s : State) (n : Nat) (t : State) : Prop where
  inv : t.Inv
  phase : t.phase = .driveLow ∨ t.phase = .driveHigh ∨ t.phase = .scan
  left : ticksToScan t + n = ticksToScan s
  kept : t = s.withHandshakeOf t

theorem HandshakeTo.trans {s t u : State} {n m : Nat} (h : HandshakeTo s n t) (h' : HandshakeTo t m u) :
    HandshakeTo s (n + m) u where
  inv := h'.inv
  phase := h'.phase
  left := by rw [← h.left, ← h'.left]; omega
  kept := h'.kept.trans (congrArg (·.withHandshakeOf u) h.kept)

theorem HandshakeTo.pin {s t : State} {n : Nat} (h : HandshakeTo s n t) : t.pin = s.pin :=
  show t.pin = (s.withHandshakeOf t).pin from congrArg State.pin h.kept

theorem HandshakeTo.host {s t : State} {n : Nat} (h : HandshakeTo s n t) : t.host = s.host :=
  show t.host = (s.withHandshakeOf t).host from congrArg State.host h.kept

/-- R118: while an attempt goes on, the host that waits for its end, or for `busy` = 0, stays as it is. -/
theorem hostMove_host_of_busy {s : State} (h : s.Inv) (hb : s.phase ≠ .idle) (p : PortsIn) :
    (hostMove s p).1 = s.host := by
  have hdone : s.done ≠ true := fun hd => hb (h.doneIdle hd)
  rcases hostMove_cases s p with ⟨-, hm⟩ | ⟨r, hread, ⟨-, -, hm⟩ | ⟨-, hd, -⟩ | ⟨-, hd, -⟩ | ⟨ha, hm⟩⟩
  · rw [hm]
  · rw [hm]
  · exact absurd hd hdone
  · exact absurd hd hdone
  · have hr : { r with awaiting := false } = r := ha ▸ rfl
    rw [hm, hostGive, if_pos ((busy_iff s).2 hb), hr, ← hread]

/-- A rising edge during an attempt leaves the registers and the host. -/
theorem clockEdge_of_busy {s : State} (h : s.Inv) (hb : s.phase ≠ .idle) :
    clockEdge s = s.withHandshakeOf (clockEdge s) := by
  have hhost : (clockEdge s).host = s.host := hostMove_host_of_busy h hb _
  exact congrArg (fun x => { s.withHandshakeOf (clockEdge s) with host := x }) hhost

/-! ### Each operation takes one from `ticksToScan` -/

theorem ticksToScan_wait {c : State} (hp : c.phase = .driveLow ∨ c.phase = .driveHigh) (h0 : c.delay.toNat ≠ 0) :
    ticksToScan { c with delay := delayDown c.delay } + 1 = ticksToScan c := by
  have hdown := delayDown_of_ne_zero h0
  rcases hp with hp | hp <;> simp only [ticksToScan, hp, hdown] <;> omega

theorem ticksToScan_raise {c : State} (hp : c.phase = .driveLow) (h1 : c.delay.toNat = 1) :
    ticksToScan { c with lineOut := true, delay := delayOf Config.releaseTicks, phase := .driveHigh } + 1 =
      ticksToScan c := by
  rw [ticksToScan_of_driveHigh rfl, ticksToScan_of_driveLow hp, delayOf_releaseTicks, h1, Nat.add_comm]

theorem ticksToScan_release {c : State} (hp : c.phase = .driveHigh) (h1 : c.delay.toNat = 1) :
    ticksToScan { c with lineOe := false, phase := .scan } + 1 = ticksToScan c := by
  rw [ticksToScan_of_scan rfl, ticksToScan_of_driveHigh hp, h1]

/-- One clock step of the handshake, or one between ticks at the scan's start: a tick step takes one from
`ticksToScan`. -/
theorem handshake_step {s : State} (h : s.Inv) (hc : s.host.call = none) (hr : (clockEdge s).ports.rst = false)
    (hp : s.phase = .driveLow ∨ s.phase = .driveHigh ∨ s.phase = .scan)
    (hle : (if (clockEdge s).ports.tick then 1 else 0) ≤ ticksToScan s) :
    ∃ u, step s = .next u ∧ HandshakeTo s (if (clockEdge s).ports.tick then 1 else 0) u
      ∧ u.script = s.script.tail := by
  have hd := dueCall_of_call_none hc
  have hb : s.phase ≠ .idle := by rcases hp with hp | hp | hp <;> simp [hp]
  have lands {n : Nat} {u : State} (hst : step s = .next u) (hu : u = (clockEdge s).withHandshakeOf u)
      (hpu : u.phase = .driveLow ∨ u.phase = .driveHigh ∨ u.phase = .scan)
      (hleft : ticksToScan u + n = ticksToScan s) : HandshakeTo s n u :=
    ⟨stepKeepsTheInvariant s u h hst, hpu, hleft, hu.trans (congrArg (·.withHandshakeOf u) (clockEdge_of_busy h hb))⟩
  cases ht : (clockEdge s).ports.tick with
  | false =>
    have hst := step_of_no_tick hd hr ht hp
    exact ⟨_, hst, lands hst rfl hp rfl, rfl⟩
  | true =>
    have hdriven : s.phase = .driveLow ∨ s.phase = .driveHigh := by
      rcases hp with hp | hp | hp
      · exact .inl hp
      · exact .inr hp
      · simp [ht, ticksToScan_of_scan hp] at hle
    by_cases h1 : s.delay.toNat = 1
    · rcases hdriven with hp | hp
      · have hst := step_of_raise hd hr ht hp h1
        exact ⟨_, hst, lands hst rfl (.inr (.inl rfl)) (ticksToScan_raise (c := clockEdge s) hp h1), rfl⟩
      · have hst := step_of_release hd hr ht hp h1
        exact ⟨_, hst, lands hst rfl (.inr (.inr rfl)) (ticksToScan_release (c := clockEdge s) hp h1), rfl⟩
    · have hst := step_of_wait hd hr ht hdriven h1
      have h0 := Nat.one_le_iff_ne_zero.1 (h.delayNotZero hdriven)
      exact ⟨_, hst, lands hst rfl (hdriven.imp_right .inl) (ticksToScan_wait (c := clockEdge s) hdriven h0), rfl⟩

/-- The handshake over port values `q` with no more tick steps than are left. -/
theorem handshake_run {s : State} {q rest : List PortsIn} (h : s.Inv) (hc : s.host.call = none)
    (hp : s.phase = .driveLow ∨ s.phase = .driveHigh ∨ s.phase = .scan) (hq : s.script = q ++ rest) (hr : NoReset q)
    (hle : ticks q ≤ ticksToScan s) :
    ∃ t, Reaches q.length s t ∧ HandshakeTo s (ticks q) t ∧ t.script = rest := by
  induction q generalizing s with
  | nil => exact ⟨s, (reaches_zero s s).2 rfl, ⟨h, hp, rfl, rfl⟩, hq⟩
  | cons p q ih =>
    obtain ⟨hrst, hr⟩ := (noReset_cons p q).1 hr
    have hports := comingPorts_cons hq
    have htick : (clockEdge s).ports.tick = p.tick := by rw [clockEdge_tick, hports]
    rw [ticks_cons, ← htick] at hle ⊢
    obtain ⟨u, hst, hu, hscript⟩ := handshake_step h hc (by rw [clockEdge_rst, hports, hrst]) hp (by omega)
    have hcu : u.host.call = none := hu.host ▸ hc
    have hleft := hu.left
    obtain ⟨t, hreach, ht, hrest⟩ := ih hu.inv hcu hu.phase (by rw [hscript, hq]; rfl) hr (by omega)
    exact ⟨t, (reaches_succ q.length s t).2 ⟨u, hst, hreach⟩, hu.trans ht, hrest⟩

/-! ### `ticksToScan` tells the phase -/

section
variable {s t : State} {n : Nat} (h : HandshakeTo s n t)
include h

/-- R22: DRIVE_HIGH begins with `RELEASE_TICKS` left, so that with more than that the wire is still low. -/
theorem HandshakeTo.driveLow (hn : n + Config.releaseTicks < ticksToScan s) : t.phase = .driveLow := by
  have hleft := h.left
  rcases h.phase with hp | hp | hp
  · exact hp
  · have hdelay := h.inv.delayHigh hp
    rw [ticksToScan_of_driveHigh hp] at hleft
    omega
  · rw [ticksToScan_of_scan hp] at hleft
    omega

/-- R22, R88: in DRIVE_LOW a tick step of its own is left besides `RELEASE_TICKS`. -/
theorem HandshakeTo.driveHigh (hn : n < ticksToScan s) (hle : ticksToScan s ≤ n + Config.releaseTicks) :
    t.phase = .driveHigh := by
  have hleft := h.left
  rcases h.phase with hp | hp | hp
  · have hdelay := h.inv.delayNotZero (.inl hp)
    rw [ticksToScan_of_driveLow hp] at hleft
    omega
  · exact hp
  · rw [ticksToScan_of_scan hp] at hleft
    omega

/-- R88: in a driven phase `DELAY` is not 0. -/
theorem HandshakeTo.scan (hn : n = ticksToScan s) : t.phase = .scan := by
  have hleft := h.left
  rcases h.phase with hp | hp | hp
  · have hdelay := h.inv.delayNotZero (.inl hp)
    rw [ticksToScan_of_driveLow hp] at hleft
    omega
  · have hdelay := h.inv.delayNotZero (.inr hp)
    rw [ticksToScan_of_driveHigh hp] at hleft
    omega
  · exact hp

end

/-- Settles O12: the run counts `ticksToScan` down from the sum of the two durations, and the registers of the scan are
still those of the state that `ATTEMPT` left. -/
theorem handshakeDrivesLowThenHigh : Obligations.HandshakeDrivesLowThenHigh := by
  intro s q rest h hc hp hdelay hq hr
  have hsum := ticksToScan_of_driveLow hp
  have run := handshake_run h hc (.inl hp) hq hr
  refine ⟨fun hlt => ?_, fun hge hlt => ?_, fun heq _ => ?_⟩
  · obtain ⟨t, hreach, ht, -⟩ := run (by omega)
    have hphase := ht.driveLow (by omega)
    exact ⟨t, hreach, hphase, ht.inv.line_of_driveLow hphase⟩
  · obtain ⟨t, hreach, ht, -⟩ := run (by omega)
    have hphase := ht.driveHigh (by omega) (by omega)
    exact ⟨t, hreach, hphase, ht.inv.line_of_driveHigh hphase⟩
  · obtain ⟨t, hreach, ht, hrest⟩ := run (by omega)
    have hphase := ht.scan (by omega)
    have hfresh : t.slot = 0#7 ∧ t.counter = 0#8 ∧ t.bitCount = 0#6 ∧ t.lastState = true :=
      ht.kept ▸ h.freshWhileDriven (.inl hp)
    exact ⟨t, hreach, hphase, ht.inv.lineOe_of_scan hphase, hrest, hfresh⟩

/-! ## The wire of the set-up pin (R143, R147) -/

theorem padDrive_pinSel (t : State) : padDrive (portsOut t) t.pin = if t.lineOe then some t.lineOut else none := by
  simp [padDrive, portsOut]

/-- Settles O55: the pin selected stays that of the attempt, and its pad follows the phases of the handshake. -/
theorem setUpPinIsDrivenLowThenHigh : Obligations.SetUpPinIsDrivenLowThenHigh := by
  intro e s q rest h hc hp hdelay hq hr hset hex
  have hsum := ticksToScan_of_driveLow hp
  have run := handshake_run h hc (.inl hp) hq hr
  have drive {t : State} {n : Nat} (ht : HandshakeTo s n t) (hf : e.FollowsPorts (portsOut t)) :
      e.driven s.pin = if t.lineOe then some t.lineOut else none := by
    rw [hf s.pin hset hex, ← ht.pin, padDrive_pinSel]
  refine ⟨fun hlt => ?_, fun hge hlt => ?_, fun heq _ => ?_⟩
  · obtain ⟨t, hreach, ht, -⟩ := run (by omega)
    obtain ⟨hoe, hout⟩ := ht.inv.line_of_driveLow (ht.driveLow (by omega))
    exact ⟨t, hreach, fun hf => by simp [drive ht hf, hoe, hout]⟩
  · obtain ⟨t, hreach, ht, -⟩ := run (by omega)
    obtain ⟨hoe, hout⟩ := ht.inv.line_of_driveHigh (ht.driveHigh (by omega) (by omega))
    exact ⟨t, hreach, fun hf => by simp [drive ht hf, hoe, hout]⟩
  · obtain ⟨t, hreach, ht, -⟩ := run (by omega)
    have hoe := ht.inv.lineOe_of_scan (ht.scan (by omega))
    exact ⟨t, hreach, fun hf => by simp [drive ht hf, hoe]⟩

end Sys2Proof.Machine

/-! PROOFS. Pulse sampling and the scan (spec/42_pulse_sampling.md R92 to R99). -/

namespace Sys2Proof.Machine

/-! ## The operation a tick step of the scan runs while the sample stays the same (R93, R94) -/

section
variable {s : State} (hd : dueCall s = none) (hr : (clockEdge s).ports.rst = false)
  (ht : (clockEdge s).ports.tick = true) (hp : s.phase = .scan) (hl : (clockEdge s).ports.lineIn = s.lastState)
  (hi : s.slot.toNat ≤ 84)
include hd hr ht hp hl hi

theorem step_of_count (hc : s.counter.toNat ≤ 253) : step s = exec (.count s.slot s.counter) (clockEdge s) := by
  have hne : ¬ s.counter.toNat = 254 := by omega
  rw [step_of_no_call hd, blockStep_scan hr ht hp hi (Nat.le_succ_of_le hc), clockEdge_lastState,
    if_neg (not_not.2 hl), clockEdge_counter, if_neg hne, clockEdge_slot]

theorem step_of_tmo (hc : s.counter.toNat = 254) : step s = exec (.tmo s.slot) (clockEdge s) := by
  rw [step_of_no_call hd, blockStep_scan hr ht hp hi hc.le, clockEdge_lastState, if_neg (not_not.2 hl),
    clockEdge_counter, if_pos hc, clockEdge_slot]

end

/-- R93: below the sentinel the counter does not overflow. -/
theorem counter_succ {c : BitVec 8} (hc : c.toNat ≤ 253) : (c + 1#8).toNat = c.toNat + 1 := by bv_omega

/-- R95: up to the last slot the slot number does not overflow. -/
theorem slot_succ {i : BitVec 7} (hi : i.toNat ≤ 84) : (i + 1#7).toNat = i.toNat + 1 := by bv_omega

/-- Settles O13: the SLOT word with an equal sample and a count below 254 selects `COUNT`. -/
theorem countRecordsOneSample : Obligations.CountRecordsOneSample :=
  ⟨fun _ _ _ => rfl, fun _ hd hr hp ht hl hi hc => ⟨step_of_count hd hr ht hp hl hi hc, counter_succ hc⟩⟩

/-- Settles O14: the SLOT word with an equal sample and count 254 selects `TMO`. -/
theorem timeoutEndsTheScan : Obligations.TimeoutEndsTheScan :=
  ⟨fun _ _ => rfl, fun _ hd hr hp ht hl hi hc => step_of_tmo hd hr ht hp hl hi hc⟩

/-- Settles O15: the meaning of all three is the transition step. -/
theorem skippedTransitionsOnlyMoveOn : Obligations.SkippedTransitionsOnlyMoveOn := by
  rintro i c s op (rfl | rfl | rfl) <;> rfl

/-! ## Everything a clock step of the scan can do -/

/-- The rules of `BlockMove` for the scan without reset: `c` is the state with the ports of the clock step presented.
`scan_step` ties it to `step`. -/
inductive ScanMove (c : State) : State → Prop where
  | hold (ht : c.ports.tick = false) : ScanMove c c
  | count (ht : c.ports.tick = true) (hl : c.ports.lineIn = c.lastState) (hc : c.counter.toNat ≤ 253) :
      ScanMove c { c with counter := c.counter + 1#8 }
  | tmo (ht : c.ports.tick = true) (hl : c.ports.lineIn = c.lastState) (hc : c.counter.toNat = 254) :
      ScanMove c { c with counter := 255#8, timedOut := true, phase := .validate }
  | skip (ht : c.ports.tick = true) (hl : c.ports.lineIn ≠ c.lastState)
      (hd : c.slot.toNat < 4 ∨ c.slot.toNat % 2 = 1 ∨ c.bitCount.toNat = 40) : ScanMove c (transition c)
  | shift (ht : c.ports.tick = true) (hl : c.ports.lineIn ≠ c.lastState) (hs : 4 ≤ c.slot.toNat)
      (he : c.slot.toNat % 2 = 0) (hb : c.bitCount.toNat < 40) : ScanMove c (shifted (bitOf c.counter) c)

theorem BlockMove.scanMove {c t : State} (hm : BlockMove c t) (hr : c.ports.rst = false) (hp : c.phase = .scan) :
    ScanMove c t := by
  cases hm with
  | reset hr' => exact absurd (hr.symm.trans hr') nofun
  | hold _ ht => exact .hold ht
  | count _ ht _ _ hl hc => exact .count ht hl hc
  | tmo _ ht _ _ hl hc => exact .tmo ht hl hc
  | skip _ ht _ _ hl _ hd => exact .skip ht hl hd
  | shift _ ht _ _ hl _ hs he hb => exact .shift ht hl hs he hb
  | nop _ hp' | attempt _ hp' | raise _ _ hp' | release _ _ hp' | commit _ hp' | reject _ hp' =>
    exact absurd (hp.symm.trans hp') nofun
  | wait _ _ hp' => simp [hp] at hp'

/-- `s` with the registers that the scan's operations write (R93 to R96, R103), and the input side, taken from `t`. -/
def State.withScanOf (s t : State) : State :=
  { s with
    frame := t.frame
    phase := t.phase
    slot := t.slot
    counter := t.counter
    lastState := t.lastState
    bitCount := t.bitCount
    timedOut := t.timedOut
    ports := t.ports
    script := t.script
    edge := t.edge }

theorem withScanOf_trans {s t u : State} (h : t = s.withScanOf t) (h' : u = t.withScanOf u) : u = s.withScanOf u :=
  h'.trans (congrArg (·.withScanOf u) h)

/-- A rising edge in the scan leaves the registers and the host. -/
theorem clockEdge_of_scan {s : State} (h : s.Inv) (hp : s.phase = .scan) :
    clockEdge s = s.withScanOf (clockEdge s) := by
  have hhost : (clockEdge s).host = s.host := hostMove_host_of_busy h (by simp [hp]) _
  exact congrArg (fun x => { s.withScanOf (clockEdge s) with host := x }) hhost

theorem ScanMove.kept {c t : State} (hm : ScanMove c t) : t = c.withScanOf t := by
  cases hm <;> rfl

theorem ScanMove.ports {c t : State} (hm : ScanMove c t) : t.ports = c.ports := by
  cases hm <;> rfl

theorem ScanMove.script {c t : State} (hm : ScanMove c t) : t.script = c.script := by
  cases hm <;> rfl

/-- R17: the scan is left for VALIDATE only. -/
theorem ScanMove.phase {c t : State} (hm : ScanMove c t) (hp : c.phase = .scan) :
    t.phase = .scan ∨ t.phase = .validate := by
  have moved (u : State) (hu : u.phase = .scan) :
      (transition u).phase = .scan ∨ (transition u).phase = .validate := by
    rw [transition_phase]
    split
    · exact .inr rfl
    · exact .inl hu
  cases hm with
  | hold | count => exact .inl hp
  | tmo => exact .inr rfl
  | skip | shift => exact moved _ hp

/-- One clock step of the scan, at which `p` comes. -/
theorem scan_step {s : State} {p : PortsIn} {q : List PortsIn} (h : s.Inv) (hc : s.host.call = none)
    (hp : s.phase = .scan) (hq : s.script = p :: q) (hr : p.rst = false) :
    ∃ t, step s = .next t ∧ ScanMove (clockEdge s) t ∧ t.Inv ∧ t = s.withScanOf t ∧ t.host.call = none
      ∧ t.script = q := by
  obtain ⟨t, hst⟩ := noStepStopsUnderTheInvariant s h
  have hrst : (clockEdge s).ports.rst = false := by rw [clockEdge_rst, comingPorts_cons hq, hr]
  have hm := (blockMove_of_step (dueCall_of_call_none hc) hst).scanMove hrst hp
  exact ⟨t, hst, hm, stepKeepsTheInvariant s t h hst, withScanOf_trans (clockEdge_of_scan h hp) hm.kept,
    call_of_step hst hc, by rw [hm.script, clockEdge_script, hq, List.tail_cons]⟩

theorem reaches_one {s t : State} (h : step s = .next t) : Reaches 1 s t :=
  (reaches_succ 0 s t).2 ⟨t, h, (reaches_zero t t).2 rfl⟩

/-! ## The scan ends (R99)

Every tick step takes at least one from `ticksToValidate`, which is positive in the scan. -/

/-- 255 tick steps for each slot that is left, less those counted in the present one: no fewer than the scan can still
take. -/
def ticksToValidate (s : State) : Nat := 255 * (85 - s.slot.toNat) - s.counter.toNat

theorem State.Inv.ticksToValidate_pos {s : State} (h : s.Inv) (hp : s.phase = .scan) : 0 < ticksToValidate s := by
  have hi := h.slot_le_of_scan hp
  have hc := h.counterInScan hp
  unfold ticksToValidate
  omega

theorem ScanMove.ticksToValidate_le {c t : State} (hm : ScanMove c t) (hi : c.slot.toNat ≤ 84)
    (hc : c.counter.toNat ≤ 254) : ticksToValidate t + (if c.ports.tick then 1 else 0) ≤ ticksToValidate c := by
  have hslot := slot_succ hi
  cases hm with
  | hold ht => simp [ht]
  | count ht _ hc' =>
    have hcount := counter_succ hc'
    simp only [ticksToValidate, ht, hcount, if_true]
    omega
  | tmo ht _ hc' =>
    simp only [ticksToValidate, ht, hc', BitVec.toNat_ofNat, if_true]
    omega
  | skip ht | shift ht =>
    simp only [ticksToValidate, shifted, transition_slot, transition_counter, hslot, ht, BitVec.toNat_ofNat, if_true]
    omega

/-- R99 from any point of the scan. -/
theorem scan_ends {s : State} {q rest : List PortsIn} (h : s.Inv) (hc : s.host.call = none) (hp : s.phase = .scan)
    (hq : s.script = q ++ rest) (hr : NoReset q) (hle : ticksToValidate s ≤ ticks q) :
    ∃ k t, k ≤ q.length ∧ Reaches k s t ∧ t.phase = .validate := by
  induction q generalizing s with
  | nil => exact absurd hle (Nat.not_le.2 (h.ticksToValidate_pos hp))
  | cons p q ih =>
    obtain ⟨hrst, hr⟩ := (noReset_cons p q).1 hr
    obtain ⟨u, hst, hm, hinv, -, hcu, hscript⟩ := scan_step h hc hp hq hrst
    rcases hm.phase hp with hpu | hpu
    · have hless := hm.ticksToValidate_le (h.slot_le_of_scan hp) (h.counterInScan hp)
      rw [clockEdge_tick, comingPorts_cons hq] at hless
      rw [ticks_cons] at hle
      have hsame : ticksToValidate (clockEdge s) = ticksToValidate s := rfl
      obtain ⟨k, t, hk, hreach, ht⟩ := ih hinv hcu hpu hscript hr (by omega)
      exact ⟨k + 1, t, Nat.succ_le_succ hk, (reaches_succ k s t).2 ⟨u, hst, hreach⟩, ht⟩
    · exact ⟨1, u, Nat.succ_pos _, reaches_one hst, hpu⟩

/-- Settles O51: at most 255 tick steps are left for each of the 85 slots. -/
theorem scanEndsWithinItsBound : Obligations.ScanEndsWithinItsBound := by
  intro s q rest h hc hp hq hr hle
  have hmost : ticksToValidate s ≤ 21675 := by unfold ticksToValidate; omega
  exact scan_ends h hc hp hq hr (hmost.trans hle)

/-! ## The run length of a slot (R67, R97) -/

section
variable {s t : State} (h : SameRegisters s t)
include h

theorem SameRegisters.phase : t.phase = s.phase := by unfold SameRegisters at h; rw [h]

theorem SameRegisters.slot : t.slot = s.slot := by unfold SameRegisters at h; rw [h]

theorem SameRegisters.lastState : t.lastState = s.lastState := by unfold SameRegisters at h; rw [h]

theorem SameRegisters.bitCount : t.bitCount = s.bitCount := by unfold SameRegisters at h; rw [h]

theorem SameRegisters.frame : t.frame = s.frame := by unfold SameRegisters at h; rw [h]

end

/-- `u` is `s` with `n` equal samples more counted. -/
structure CountedTo (s : State) (n : Nat) (u : State) : Prop where
  inv : u.Inv
  call : u.host.call = none
  counter : u.counter.toNat = s.counter.toNat + n
  kept : SameRegisters { s with counter := u.counter } u

/-- Equal samples, while the sentinel is not reached, are counted and change nothing else. -/
theorem count_run {s : State} {q rest : List PortsIn} (h : s.Inv) (hc : s.host.call = none) (hp : s.phase = .scan)
    (hq : s.script = q ++ rest) (hsame : ∀ x ∈ q, x.rst = false ∧ x.tick = true ∧ x.lineIn = s.lastState)
    (hle : s.counter.toNat + q.length ≤ 254) :
    ∃ u, Reaches q.length s u ∧ CountedTo s q.length u ∧ u.script = rest := by
  induction q generalizing s with
  | nil => exact ⟨s, (reaches_zero s s).2 rfl, ⟨h, hc, rfl, rfl⟩, hq⟩
  | cons p q ih =>
    obtain ⟨⟨hrst, htick, hline⟩, hsame⟩ := List.forall_mem_cons.1 hsame
    rw [List.length_cons] at hle ⊢
    have hports := comingPorts_cons hq
    have hst := step_of_count (dueCall_of_call_none hc) (by rw [clockEdge_rst, hports, hrst])
      (by rw [clockEdge_tick, hports, htick]) hp (by rw [clockEdge_lineIn, hports, hline]) (h.slot_le_of_scan hp)
      (by omega)
    have hcount := counter_succ (c := s.counter) (by omega)
    obtain ⟨u, hreach, hu, hrest⟩ := ih (s := { clockEdge s with counter := s.counter + 1#8 })
      (stepKeepsTheInvariant s _ h hst) (call_of_step hst hc) hp (by rw [clockEdge_script, hq]; rfl) hsame
      (by simp only [hcount]; omega)
    have hcounter : u.counter.toNat = s.counter.toNat + (q.length + 1) := by
      rw [hu.counter, hcount, Nat.add_assoc, Nat.add_comm 1]
    exact ⟨u, (reaches_succ q.length s u).2 ⟨_, hst, hreach⟩, ⟨hu.inv, hu.call, hcounter, hu.kept⟩, hrest⟩

/-- What the transition of a slot of `s` with `n` samples counted leaves: the next slot begun, and in a data slot with
room the bit `n > 16`. -/
structure SlotEnded (s : State) (n : Nat) (t : State) : Prop where
  slot : t.slot = s.slot + 1#7
  counter : t.counter = 0#8
  lastState : t.lastState = t.ports.lineIn
  bit : 4 ≤ s.slot.toNat → s.slot.toNat % 2 = 0 → s.bitCount.toNat < 40 →
    t.bitCount = s.bitCount + 1#6 ∧ (Memory.read t.frame (s.bitCount.toNat / 8)).toNat % 2 = if 16 < n then 1 else 0

theorem bitOf_toNat (c : BitVec 8) : (bitOf c).toNat = if 16 < c.toNat then 1 else 0 := by
  by_cases hc : 16 < c.toNat
  · rw [if_pos hc, (bitOf_iff c).2 hc]; rfl
  · rw [if_neg hc, Bool.eq_false_iff.2 (mt (bitOf_iff c).1 hc)]; rfl

/-- R38: the bit shifted in is the lowest one. -/
theorem shiftIn_mod_two (v : Byte) (b : Bool) : (shiftIn v b).toNat % 2 = b.toNat := by
  have hb := b.toNat_le
  rw [shiftIn_toNat]
  omega

theorem ScanMove.slotEnded {c t : State} (hm : ScanMove c t) (ht : c.ports.tick = true)
    (hl : c.ports.lineIn ≠ c.lastState) : SlotEnded c c.counter.toNat t := by
  cases hm with
  | hold ht' => exact absurd (ht.symm.trans ht') nofun
  | count _ hl' | tmo _ hl' => exact absurd hl' hl
  | skip _ _ hd => exact ⟨rfl, rfl, rfl, fun hs he hb => by omega⟩
  | shift =>
    have hread : Memory.read (shifted (bitOf c.counter) c).frame (bitAddress c) = shiftIn _ (bitOf c.counter) :=
      Memory.read_write_same c.frame _ _
    refine ⟨rfl, rfl, rfl, fun _ _ _ => ⟨rfl, ?_⟩⟩
    rw [← bitOf_toNat, ← bitAddress, hread, shiftIn_mod_two]

/-- R97: a slot that is held for less than the sentinel ends with the first differing sample. -/
theorem transition_run {s : State} {q rest : List PortsIn} {p : PortsIn} (h : s.Inv) (hc : s.host.call = none)
    (hp : s.phase = .scan) (hq : s.script = q ++ p :: rest)
    (hsame : ∀ x ∈ q, x.rst = false ∧ x.tick = true ∧ x.lineIn = s.lastState)
    (hle : s.counter.toNat + q.length ≤ 254) (hr : p.rst = false) (ht : p.tick = true) (hl : p.lineIn ≠ s.lastState) :
    ∃ t, Reaches (q.length + 1) s t ∧ SlotEnded s (s.counter.toNat + q.length) t ∧ t.ports.lineIn = p.lineIn := by
  obtain ⟨u, hreach, hu, hscript⟩ := count_run h hc hp hq hsame hle
  have hports := comingPorts_cons hscript
  have hline : (clockEdge u).ports.lineIn = p.lineIn := by rw [clockEdge_lineIn, hports]
  have hlast : (clockEdge u).lastState = s.lastState := hu.kept.lastState
  have hslot : (clockEdge u).slot = s.slot := hu.kept.slot
  have hbits : (clockEdge u).bitCount = s.bitCount := hu.kept.bitCount
  obtain ⟨t, hst, hm, -⟩ := scan_step hu.inv hu.call (hu.kept.phase.trans hp) hscript hr
  have hend := hm.slotEnded (by rw [clockEdge_tick, hports, ht]) (by rw [hline, hlast]; exact hl)
  refine ⟨t, reaches_add hreach (reaches_one hst), ?_, by rw [hm.ports, hline]⟩
  exact ⟨hslot ▸ hend.slot, hend.counter, hend.lastState, hu.counter ▸ hslot ▸ hbits ▸ hend.bit⟩

/-- R94: a slot that is held up to the sentinel ends the scan. -/
theorem timeout_run {s : State} {q rest : List PortsIn} {p : PortsIn} (h : s.Inv) (hc : s.host.call = none)
    (hp : s.phase = .scan) (hq : s.script = q ++ p :: rest)
    (hsame : ∀ x ∈ q, x.rst = false ∧ x.tick = true ∧ x.lineIn = s.lastState)
    (heq : s.counter.toNat + q.length = 254) (hr : p.rst = false) (ht : p.tick = true) (hl : p.lineIn = s.lastState) :
    ∃ t, Reaches (q.length + 1) s t ∧ t.phase = .validate ∧ t.timedOut = true ∧ t.counter = 255#8 ∧ t.slot = s.slot
      ∧ t.bitCount = s.bitCount ∧ t.frame = s.frame := by
  obtain ⟨u, hreach, hu, hscript⟩ := count_run h hc hp hq hsame heq.le
  have hports := comingPorts_cons hscript
  have hpu : u.phase = .scan := hu.kept.phase.trans hp
  have hlast : u.lastState = s.lastState := hu.kept.lastState
  have hst := step_of_tmo (dueCall_of_call_none hu.call) (by rw [clockEdge_rst, hports, hr])
    (by rw [clockEdge_tick, hports, ht]) hpu (by rw [clockEdge_lineIn, hports, hlast, hl])
    (hu.inv.slot_le_of_scan hpu) (hu.counter.trans heq)
  exact ⟨_, reaches_add hreach (reaches_one hst), rfl, rfl, rfl, hu.kept.slot, hu.kept.bitCount, hu.kept.frame⟩

/-- Settles O21: from 0, `n` equal samples count to `n`, and the 255th meets 254 in the counter. -/
theorem runLengthBecomesTheBit : Obligations.RunLengthBecomesTheBit := by
  rintro s n q rest p h hc hp h0 rfl hsame
  have hzero : s.counter.toNat = 0 := by rw [h0]; rfl
  constructor
  · intro hle hrst htick hline hq
    obtain ⟨t, hreach, ht, hsample⟩ := transition_run h hc hp hq hsame (by omega) hrst htick hline
    rw [hzero, Nat.zero_add] at ht
    exact ⟨t, hreach, ht.slot, ht.counter, ht.lastState.trans hsample, ht.bit⟩
  · intro hlen hq
    obtain rfl | ⟨q, x, rfl⟩ := List.eq_nil_or_concat' q
    · cases hlen
    · obtain ⟨hsame, hx⟩ := List.forall_mem_append.1 hsame
      obtain ⟨hrst, htick, hline⟩ := hx x (List.mem_singleton_self x)
      rw [List.length_append, List.length_singleton] at hlen ⊢
      obtain ⟨t, hreach, hpt, hto, hcount, hslot, hbits, hframe⟩ := timeout_run h hc hp
        (hq.trans (List.append_cons q x rest).symm) hsame (by omega) hrst htick hline
      exact ⟨t, hreach, hpt, hto, hcount, hslot, hbits, fun _ => by rw [hframe]⟩

/-! ## The scan as the loop of R92 -/

/-! ### Bits and bytes (R38, R40, R107) -/

theorem numberOfBits_append (l : List Bool) (b : Bool) : numberOfBits (l ++ [b]) = 2 * numberOfBits l + b.toNat := by
  induction l with
  | nil => simp [numberOfBits]
  | cons a l ih =>
    simp only [List.cons_append, numberOfBits, ih, List.length_append, List.length_singleton, pow_succ]
    ring

/-- The byte being filled takes the next bit. -/
theorem byteOfBits_append_same (bits : List Bool) (b : Bool) :
    byteOfBits (bits ++ [b]) (bits.length / 8) = 2 * byteOfBits bits (bits.length / 8) + b.toNat := by
  have hstart : 8 * (bits.length / 8) ≤ bits.length := Nat.mul_div_le _ _
  have hroom : (bits.drop (8 * (bits.length / 8))).length < 8 := by rw [List.length_drop]; omega
  unfold byteOfBits
  rw [List.drop_append_of_le_length hstart, List.take_of_length_le (by simpa using hroom),
    List.take_of_length_le hroom.le, numberOfBits_append]

/-- The bytes before it are complete, and those after it not begun. -/
theorem byteOfBits_append_other {bits : List Bool} (b : Bool) {k : Nat} (hk : k ≠ bits.length / 8) :
    byteOfBits (bits ++ [b]) k = byteOfBits bits k := by
  unfold byteOfBits
  rcases Nat.lt_or_gt_of_ne hk with hlt | hgt
  · rw [List.drop_append_of_le_length (by omega), List.take_append_of_le_length (by rw [List.length_drop]; omega)]
  · rw [List.drop_eq_nil_of_le (by rw [List.length_append, List.length_singleton]; omega),
      List.drop_eq_nil_of_le (by omega)]

/-- A byte with fewer than eight bits in does not overflow. -/
theorem shiftIn_toNat_of_lt {v : Byte} {k : Nat} (b : Bool) (hk : k < 8) (h : v.toNat < 2 ^ k) :
    (shiftIn v b).toNat = 2 * v.toNat + b.toNat := by
  have hv : v.toNat < 2 ^ 7 := h.trans_le (Nat.pow_le_pow_right (by decide) (Nat.le_of_lt_succ hk))
  have hb := b.toNat_le
  rw [shiftIn_toNat, Nat.mod_eq_of_lt (by omega)]

/-- The accumulator holds the bits received. -/
structure Received (s : State) (bits : List Bool) : Prop where
  count : s.bitCount.toNat = bits.length
  bytes : ∀ k, (Memory.read s.frame k).toNat = byteOfBits bits k

/-- With no bit received the accumulator is empty. -/
theorem received_nil {s : State} (h : FrameHolds s.frame s.bitCount.toNat) (hb : s.bitCount.toNat = 0) :
    Received s [] := by
  rw [hb] at h
  refine ⟨hb, fun k => ?_⟩
  rw [h.read_eq_zero k]
  simp [byteOfBits, numberOfBits]

/-- R103, R104: a SHIFT appends its bit to the bits received. -/
theorem Received.append {c : State} {bits : List Bool} (hm : Received c bits)
    (h : FrameHolds c.frame c.bitCount.toNat) (hb : c.bitCount.toNat < 40) (b : Bool) :
    Received (shifted b c) (bits ++ [b]) where
  count := by
    have hcount : (c.bitCount + 1#6).toNat = c.bitCount.toNat + 1 := by bv_omega
    rw [List.length_append, ← hm.count]
    exact hcount
  bytes k := by
    change (Memory.read (Memory.write c.frame (c.bitCount.toNat / 8)
      (shiftIn (Memory.read c.frame (c.bitCount.toNat / 8)) b)) k).toNat = _
    by_cases hk : k = c.bitCount.toNat / 8
    · subst hk
      rw [Memory.read_write_same, shiftIn_toNat_of_lt b (Nat.mod_lt _ (by decide)) (h.partialByte hb), hm.bytes,
        hm.count, byteOfBits_append_same]
    · rw [Memory.read_write_other _ _ hk, byteOfBits_append_other b (by rwa [← hm.count]), hm.bytes]

/-! ### The loop of R92 from within a slot -/

/-- The outer loop of R92, `n` equal samples being counted already in slot `i`. -/
def slotLoop (i n : Nat) (awaited : Level) (bits : List Bool) (stream : List Level) : Option ScanEnd :=
  match slotEvent awaited n stream with
  | none => none
  | some (.timeout, rest) => some { bits := bits, slot := i, timedOut := true, rest := rest }
  | some (.transition m, rest) => scanLoop (84 - i) (i + 1) (!awaited) (handleSlot i m bits) rest

theorem scanLoop_eq_slotLoop {i : Nat} (hi : i ≤ 84) (awaited : Level) (bits : List Bool) (stream : List Level) :
    scanLoop (85 - i) i awaited bits stream = slotLoop i 0 awaited bits stream := by
  rw [show 85 - i = 84 - i + 1 by omega]
  rfl

@[simp] theorem slotLoop_nil (i n : Nat) (awaited : Level) (bits : List Bool) : slotLoop i n awaited bits [] = none :=
  rfl

theorem slotLoop_count {n : Nat} (hn : n ≤ 253) (i : Nat) (awaited : Level) (bits : List Bool) (stream : List Level) :
    slotLoop i n awaited bits (awaited :: stream) = slotLoop i (n + 1) awaited bits stream := by
  have hne : n + 1 ≠ Config.timeoutCount := by unfold Config.timeoutCount; omega
  simp [slotLoop, slotEvent, hne]

theorem slotLoop_timeout (i : Nat) (awaited : Level) (bits : List Bool) (stream : List Level) :
    slotLoop i 254 awaited bits (awaited :: stream) =
      some { bits := bits, slot := i, timedOut := true, rest := stream } := by
  simp [slotLoop, slotEvent, Config.timeoutCount]

theorem slotLoop_transition {x awaited : Level} (hx : x ≠ awaited) (i n : Nat) (bits : List Bool)
    (stream : List Level) :
    slotLoop i n awaited bits (x :: stream) = scanLoop (84 - i) (i + 1) (!awaited) (handleSlot i n bits) stream := by
  simp [slotLoop, slotEvent, hx]

theorem handleSlot_skip {i : Nat} {bits : List Bool} (h : i < 4 ∨ i % 2 = 1 ∨ bits.length = 40) (n : Nat) :
    handleSlot i n bits = bits := by
  unfold handleSlot Config.skipSlots Config.frameBits
  split_ifs with h4 hodd hfull
  · rfl
  · rfl
  · rfl
  · omega

theorem handleSlot_shift {i : Nat} {bits : List Bool} (hs : 4 ≤ i) (he : i % 2 = 0) (hb : bits.length < 40)
    (c : BitVec 8) : handleSlot i c.toNat bits = bits ++ [bitOf c] := by
  unfold handleSlot Config.skipSlots Config.frameBits
  rw [if_neg (by omega), if_neg (by omega), if_neg (by omega)]
  rfl

/-! ### Each clock step of the scan is one of the loop -/

/-- What the loop of R92 answers from where `s` stands, with `bits` received and `stream` to come: in the scan it goes
on within the slot; after the scan it has ended and left the stream unread. -/
def loopFrom (s : State) (bits : List Bool) (stream : List Level) : Option ScanEnd :=
  if s.phase = .scan then slotLoop s.slot.toNat s.counter.toNat s.lastState bits stream
  else some { bits := bits, slot := s.slot.toNat, timedOut := s.timedOut, rest := stream }

theorem loopFrom_of_scan {s : State} (hp : s.phase = .scan) (bits : List Bool) (stream : List Level) :
    loopFrom s bits stream = slotLoop s.slot.toNat s.counter.toNat s.lastState bits stream := if_pos hp

theorem loopFrom_of_validate {s : State} (hp : s.phase = .validate) (bits : List Bool) (stream : List Level) :
    loopFrom s bits stream = some { bits := bits, slot := s.slot.toNat, timedOut := s.timedOut, rest := stream } :=
  if_neg (by simp [hp])

/-- R95, R96: after the transition step the loop stands at the next slot, or behind the last one. -/
theorem loopFrom_transition {c : State} (hp : c.phase = .scan) (hi : c.slot.toNat ≤ 84) (hto : c.timedOut = false)
    (hl : c.ports.lineIn ≠ c.lastState) (bits : List Bool) (stream : List Level) :
    loopFrom (transition c) bits stream =
      scanLoop (84 - c.slot.toNat) (c.slot.toNat + 1) (!c.lastState) bits stream := by
  have hslot := slot_succ hi
  by_cases hlast : c.slot.toNat = 84
  · rw [loopFrom_of_validate (by rw [transition_phase, if_pos hlast]), transition_slot, hslot, transition_timedOut, hto,
      hlast]
    rfl
  · have hline : c.ports.lineIn = !c.lastState := Bool.eq_not_of_ne hl
    have hnext := scanLoop_eq_slotLoop (i := c.slot.toNat + 1) (by omega) (!c.lastState) bits stream
    rw [loopFrom_of_scan (by rw [transition_phase, if_neg hlast, hp]), transition_slot, hslot, transition_lastState,
      hline, ← Nat.succ_sub_succ 84]
    exact hnext.symm

/-- The bits received after a clock step, and the loop's answer unchanged: the commuting step. -/
theorem ScanMove.loopFrom_eq {c t : State} {bits : List Bool} (hm : ScanMove c t) (hp : c.phase = .scan)
    (hi : c.slot.toNat ≤ 84) (hto : c.timedOut = false) (h : FrameHolds c.frame c.bitCount.toNat)
    (hb : Received c bits) :
    ∃ bits', Received t bits' ∧ ∀ stream, loopFrom t bits' stream =
      loopFrom c bits (if c.ports.tick then c.ports.lineIn :: stream else stream) := by
  cases hm with
  | hold ht => exact ⟨bits, hb, fun stream => by simp [ht]⟩
  | count ht hl hc =>
    refine ⟨bits, ⟨hb.count, hb.bytes⟩, fun stream => ?_⟩
    rw [if_pos ht, hl, loopFrom_of_scan hp, slotLoop_count hc, ← counter_succ hc, loopFrom_of_scan (by exact hp)]
  | tmo ht hl hc =>
    refine ⟨bits, ⟨hb.count, hb.bytes⟩, fun stream => ?_⟩
    rw [if_pos ht, hl, loopFrom_of_scan hp, hc, slotLoop_timeout, loopFrom_of_validate rfl]
  | skip ht hl hd =>
    refine ⟨bits, ⟨hb.count, hb.bytes⟩, fun stream => ?_⟩
    rw [if_pos ht, loopFrom_of_scan hp, slotLoop_transition hl, handleSlot_skip (hb.count ▸ hd),
      loopFrom_transition hp hi hto hl]
  | shift ht hl hs he hroom =>
    refine ⟨bits ++ [bitOf c.counter], hb.append h hroom _, fun stream => ?_⟩
    rw [if_pos ht, loopFrom_of_scan hp, slotLoop_transition hl, handleSlot_shift hs he (hb.count ▸ hroom)]
    exact loopFrom_transition (c := { c with
      frame := Memory.write c.frame (bitAddress c) (shiftIn (Memory.read c.frame (bitAddress c)) (bitOf c.counter))
      bitCount := c.bitCount + 1#6 }) hp hi hto hl _ stream

/-! ### The whole scan -/

theorem EndsWithTick.samples_ne_nil {q : List PortsIn} (h : EndsWithTick q) : samples q ≠ [] := by
  obtain ⟨q', p, rfl, hp⟩ := h
  simp [samples, hp]

theorem EndsWithTick.of_cons {p : PortsIn} {q : List PortsIn} (h : EndsWithTick (p :: q)) (hq : q ≠ []) :
    EndsWithTick q := by
  obtain ⟨q', x, hx, ht⟩ := h
  cases q' with
  | nil => exact absurd (List.cons.inj hx).2 hq
  | cons y q' => exact ⟨q', x, (List.cons.inj hx).2, ht⟩

/-- `t` is in VALIDATE with what the loop's end `e` says, and with the other registers of `s`. -/
structure ScanEndedAs (s : State) (e : ScanEnd) (t : State) : Prop where
  inv : t.Inv
  phase : t.phase = .validate
  kept : t = s.withScanOf t
  received : Received t e.bits
  slot : t.slot.toNat = e.slot
  timedOut : t.timedOut = e.timedOut

/-- The scan, or what is left of it, over port values from which the loop reads every sample. -/
theorem scan_run {s : State} {q rest : List PortsIn} {bits : List Bool} {e : ScanEnd} (h : s.Inv)
    (hc : s.host.call = none) (hp : s.phase = .scan ∨ s.phase = .validate) (hb : Received s bits)
    (hq : s.script = q ++ rest) (hr : NoReset q) (hend : q ≠ [] → EndsWithTick q)
    (he : loopFrom s bits (samples q) = some e) (hrest : e.rest = []) :
    ∃ t, Reaches q.length s t ∧ ScanEndedAs s e t ∧ t.script = rest := by
  induction q generalizing s bits with
  | nil =>
    rcases hp with hp | hp
    · rw [loopFrom_of_scan hp, samples_nil, slotLoop_nil] at he
      cases he
    · rw [loopFrom_of_validate hp] at he
      cases he
      exact ⟨s, (reaches_zero s s).2 rfl, ⟨h, hp, rfl, hb, rfl, rfl⟩, hq⟩
  | cons p q ih =>
    have hend := hend (List.cons_ne_nil p q)
    rcases hp with hp | hp
    · obtain ⟨hrst, hr⟩ := (noReset_cons p q).1 hr
      obtain ⟨u, hst, hm, hinv, hkept, hcu, hscript⟩ := scan_step h hc hp hq hrst
      have hto : s.timedOut = false := Bool.eq_false_iff.2 (not_ended_of_running h.hostless (.inr (.inr hp))).2
      obtain ⟨bits', hbu, hloop⟩ := hm.loopFrom_eq (bits := bits) hp (h.slot_le_of_scan hp) hto h.frameHolds
        ⟨hb.count, hb.bytes⟩
      have heu : loopFrom u bits' (samples q) = some e := by
        rw [hloop, clockEdge_tick, clockEdge_lineIn, comingPorts_cons hq, ← samples_cons]
        exact he
      obtain ⟨t, hreach, ht, hscript⟩ := ih hinv hcu (hm.phase hp) hbu hscript hr hend.of_cons heu
      exact ⟨t, (reaches_succ q.length s t).2 ⟨u, hst, hreach⟩, { ht with kept := withScanOf_trans hkept ht.kept },
        hscript⟩
    · rw [loopFrom_of_validate hp] at he
      cases he
      exact absurd hrest hend.samples_ne_nil

/-- Settles O53: at the start of a scan the loop from `s` is the loop of R92, and every clock step keeps its answer. -/
theorem scanMeetsTheLoopForm : Obligations.ScanMeetsTheLoopForm := by
  intro s q rest e h hc hp hslot hcounter hq hr hend he hrest
  have hbits : s.bitCount.toNat = 0 := by rw [h.bitCountOfSlot, hslot]; rfl
  have hlast : s.lastState = true := by rw [h.parityInScan hp, hslot]; rfl
  have hloop : loopFrom s [] (samples q) = some e := by
    rw [loopFrom_of_scan hp, hslot, hcounter, hlast]
    exact (scanLoop_eq_slotLoop (Nat.zero_le 84) true [] (samples q)).symm.trans he
  obtain ⟨t, hreach, ht, hscript⟩ := scan_run h hc (.inl hp) (received_nil h.frameHolds hbits) hq hr (fun _ => hend)
    hloop hrest
  have hhum : t.lastHumidity = (s.withScanOf t).lastHumidity := congrArg State.lastHumidity ht.kept
  have htemp : t.lastTemperature = (s.withScanOf t).lastTemperature := congrArg State.lastTemperature ht.kept
  exact ⟨t, hreach, ht.phase, hscript, ht.slot, ht.received.count, ht.timedOut, fun k _ => ht.received.bytes k,
    hhum, htemp⟩

end Sys2Proof.Machine

/-! PROOFS. Classification and accumulation (spec/43_classify_accumulate.md R100 to R106). -/

namespace Sys2Proof.Machine

/-! ## What a SHIFT leaves (R103, R104) -/

/-- R38: the byte being filled has taken in the bit from the right; every other byte reads as before. -/
theorem read_shifted_frame (b : Bool) (c : State) (k : Nat) :
    Memory.read (shifted b c).frame k =
      if k = bitAddress c then BitVec.ofNat 8 (2 * (Memory.read c.frame k).toNat + b.toNat)
      else Memory.read c.frame k := by
  have hread : Memory.read (shifted b c).frame k =
      if k = bitAddress c then shiftIn (Memory.read c.frame (bitAddress c)) b else Memory.read c.frame k :=
    Memory.read_write c.frame (bitAddress c) k _
  by_cases hk : k = bitAddress c
  · rw [hread, if_pos hk, if_pos hk, shiftIn_eq, hk]
  · rw [hread, if_neg hk, if_neg hk]

/-- Settles O16: with room for its bit each operation answers `shifted`. -/
theorem shiftAppendsTheBit : Obligations.ShiftAppendsTheBit := by
  intro i c s op b hop hb
  have hexec : exec op s = .next (shifted b s) := by
    rcases hop with ⟨rfl, rfl⟩ | ⟨rfl, rfl⟩
    · exact shiftOp_inside false hb
    · exact shiftOp_inside true hb
  exact ⟨shifted b s, hexec, read_shifted_frame b s, rfl, rfl⟩

/-! ## The operation of a transition (R100, R106) -/

/-- R100 over numbers: handshake, marker, full, threshold. -/
theorem decodeTransition_role (n : Nat) (i : BitVec 7) (c : BitVec 8) :
    decodeTransition (decide (n = 40)) i c =
      if i.toNat < 4 then .skiph i c
      else if i.toNat % 2 = 1 then .skipm i c
      else if n = 40 then .drop i c
      else if 16 < c.toNat then .shift1 i c
      else .shift0 i c := by
  simp only [decodeTransition_eq, decide_eq_true_iff, bitOf_iff, Nat.mod_two_ne_zero]

/-- R106: in a data slot with room for a bit, the threshold alone chooses between the two SHIFTs. -/
theorem exec_decodeTransition_dataSlot {n : Nat} {i : BitVec 7} (hs : 4 ≤ i.toNat) (he : i.toNat % 2 = 0)
    (hn : n < 40) (c : BitVec 8) (s : State) :
    exec (decodeTransition (decide (n = 40)) i c) s = shiftOp (bitOf c) s := by
  rw [decodeTransition_eq, if_neg (Nat.not_lt.2 hs), if_neg (not_not.2 he),
    if_neg (fun hfull => hn.ne (of_decide_eq_true hfull))]
  cases bitOf c <;> rfl

section
variable {s : State} (hd : dueCall s = none) (hr : (clockEdge s).ports.rst = false) (hp : s.phase = .scan)
  (ht : (clockEdge s).ports.tick = true) (hl : (clockEdge s).ports.lineIn ≠ s.lastState)
  (hi : s.slot.toNat ≤ 84) (hc : s.counter.toNat ≤ 254)
include hd hr hp ht hl hi hc

/-- A tick step of the scan with a differing sample runs the operation of the transition. -/
theorem step_of_transition :
    step s = exec (decodeTransition (decide (s.bitCount.toNat = 40)) s.slot s.counter) (clockEdge s) := by
  rw [step_of_no_call hd, blockStep_scan hr ht hp hi hc, clockEdge_lastState, if_pos hl, clockEdge_bitCount,
    clockEdge_slot, clockEdge_counter]

/-- Where the transition ends a data slot, the step appends the bit of the count. -/
theorem step_of_dataSlot (hs : 4 ≤ s.slot.toNat) (he : s.slot.toNat % 2 = 0) (hb : s.bitCount.toNat < 40) :
    step s = .next (shifted (bitOf s.counter) (clockEdge s)) := by
  rw [step_of_transition hd hr hp ht hl hi hc, exec_decodeTransition_dataSlot hs he hb]
  exact shiftOp_inside (s := clockEdge s) _ hb

end

/-- Settles O18: the SLOT word with a differing sample selects by the order of `decodeTransition_role`. -/
theorem roleOfTheSlotDecides : Obligations.RoleOfTheSlotDecides := by
  intro s hd hr hp ht hl hi hc
  rw [step_of_transition hd hr hp ht hl hi hc, decodeTransition_role]

/-- Settles O19: the step appends `bitOf` of the count, which is 1 exactly above 16. -/
theorem countDecidesTheBit : Obligations.CountDecidesTheBit := by
  intro s hd hr hp ht hl hs hi he hb hc
  refine ⟨_, step_of_dataSlot hd hr hp ht hl hi hc hs he hb, rfl, fun k => ?_⟩
  rw [read_shifted_frame, bitOf_toNat]
  rfl

end Sys2Proof.Machine

/-! PROOFS. Validation and the whole attempt (spec/44_validate_commit.md R110 to R116). -/

namespace Sys2Proof.Machine

/-! ## The clock step in VALIDATE (R110 to R114) -/

/-- The state a clock step of VALIDATE leaves (R114): the validity predicate is the outcome, and it alone lets the two
integer bytes into the result registers. `exec_val` ties it to `COMMIT` and `REJECT`. -/
def decided (c : State) : State :=
  endAttempt (valid c)
    { c with
      lastHumidity := if valid c then BitVec.setWidth 16 (Memory.read c.frame 0) else c.lastHumidity
      lastTemperature := if valid c then BitVec.setWidth 16 (Memory.read c.frame 2) else c.lastTemperature }

theorem exec_val (c : State) :
    exec (if valid c then .commit else .reject (enoughBits c) (checksumEqual c)) c = .next (decided c) := by
  unfold decided
  cases valid c <;> rfl

/-- R64: the operation a clock step of VALIDATE runs. -/
theorem step_of_validate {s : State} (hd : dueCall s = none) (hr : (clockEdge s).ports.rst = false)
    (hp : s.phase = .validate) :
    step s = exec (if valid s then .commit else .reject (enoughBits s) (checksumEqual s)) (clockEdge s) :=
  (step_of_no_call hd).trans (blockStep_validate hr hp)

theorem step_decided {s : State} (hd : dueCall s = none) (hr : (clockEdge s).ports.rst = false)
    (hp : s.phase = .validate) : step s = .next (decided (clockEdge s)) :=
  (step_of_validate hd hr hp).trans (exec_val (clockEdge s))

/-- R112: a byte of the frame store is zero-extended into a result register. -/
theorem toNat_setWidth_result (v : Byte) : (BitVec.setWidth 16 v).toNat = v.toNat :=
  BitVec.toNat_setWidth_of_le (by decide)

/-- Settles O22: the state that `COMMIT` leaves, and VAL with both bits 1 selects it. -/
theorem commitWritesBothResults : Obligations.CommitWritesBothResults := by
  refine ⟨fun s => ⟨committed s, rfl, toNat_setWidth_result _, toNat_setWidth_result _, rfl⟩,
    fun s hd hr hp hbits hsum => ?_⟩
  rw [step_of_validate hd hr hp, if_pos ((valid_iff s).2 ⟨hbits, hsum⟩)]

/-- Settles O23: where the frame is not valid, VAL selects `REJECT`, and its two bits are not both 1. -/
theorem rejectLeavesTheResults : Obligations.RejectLeavesTheResults := by
  refine ⟨fun _ _ _ => rfl, fun s hd hr hp hbad => ?_⟩
  have hv : ¬ valid s = true := fun hv => by
    obtain ⟨hbits, hsum⟩ := (valid_iff s).1 hv
    exact hbad.elim (Nat.not_lt.2 hbits) (absurd hsum)
  refine ⟨enoughBits s, checksumEqual s, (wellFormed_reject _ _).2 fun hboth => hv (Bool.and_eq_true_iff.2 hboth), ?_⟩
  rw [step_of_validate hd hr hp, if_neg hv]

/-- Settles O24: the step leaves `decided`, whose `OK` is the validity predicate. -/
theorem validateStepDecidesTheAttempt : Obligations.ValidateStepDecidesTheAttempt := by
  intro s hd hr hp
  have hcommit (hv : valid s = true) (v : Byte) (old : Result) :
      (if valid s then BitVec.setWidth 16 v else old).toNat = v.toNat := by
    rw [if_pos hv, toNat_setWidth_result]
  exact ⟨decided (clockEdge s), step_decided hd hr hp, rfl, rfl, valid_iff s,
    fun hv => ⟨hcommit hv _ _, hcommit hv _ _⟩,
    fun hv => ⟨if_neg (Bool.eq_false_iff.1 hv), if_neg (Bool.eq_false_iff.1 hv)⟩, rfl, rfl⟩

/-! ## What the step decides, from the bits received (R116) -/

theorem Received.resultOfBits_eq {c : State} {bits : List Bool} (hb : Received c bits) (h t : Result) :
    resultOfBits bits h t =
      if valid c then (true, BitVec.setWidth 16 (Memory.read c.frame 0), BitVec.setWidth 16 (Memory.read c.frame 2))
      else (false, h, t) := by
  simp only [resultOfBits, ← hb.count, ← hb.bytes, BitVec.ofNat_toNat]
  exact if_congr (valid_iff c).symm rfl rfl

theorem Received.decided_eq {c : State} {bits : List Bool} (hb : Received c bits) :
    ((decided c).ok, (decided c).lastHumidity, (decided c).lastTemperature) =
      resultOfBits bits c.lastHumidity c.lastTemperature := by
  rw [hb.resultOfBits_eq]
  unfold decided
  cases valid c <;> rfl

/-! ## The whole attempt (R116): what stays from its command to its last step -/

/-- `t` is a state of the attempt on `pin` that was commanded in `s`: the pin is selected, and the results are still the
old ones (R23, R29, R50). -/
structure Attempting (s : State) (pin : PinId) (t : State) : Prop where
  inv : t.Inv
  call : t.host.call = none
  pin : t.pin = pin
  lastHumidity : t.lastHumidity = s.lastHumidity
  lastTemperature : t.lastTemperature = s.lastTemperature

theorem attempting_of_command {s : State} {a : PortsIn} {more : List PortsIn} (h : s.Inv) (hp : s.phase = .idle)
    (hquiet : s.host = HostState.quiet) (hq : s.script = a :: more) (hr : a.rst = false) (hs : a.start = true) :
    ∃ u, step s = .next u ∧ Attempting s a.pin u ∧ u.phase = .driveLow ∧ u.delay.toNat = Config.settleTicks
      ∧ u.script = more := by
  have hcall : s.host.call = none := congrArg HostState.call hquiet
  have hports : (clockEdge s).ports = a := by
    rw [clockEdge_ports, hostMove_quiet (congrArg HostState.reading hquiet), comingPorts_cons hq]
  have hst : step s = .next (attempted (clockEdge s).ports.pin (clockEdge s)) :=
    attemptStartsOneRead.2 s (dueCall_of_call_none hcall) (by rw [hports, hr]) hp (by rw [hports, hs])
  rw [hports] at hst
  exact ⟨_, hst, ⟨stepKeepsTheInvariant s _ h hst, call_of_step hst hcall, rfl, rfl, rfl⟩, rfl, delayOf_settleTicks,
    (clockEdge_script s).trans (congrArg List.tail hq)⟩

section
variable {s t u : State} {pin : PinId} (h : Attempting s pin t)
include h

theorem Attempting.handshake {n : Nat} (hu : HandshakeTo t n u) : Attempting s pin u where
  inv := hu.inv
  call := hu.host ▸ h.call
  pin := hu.pin.trans h.pin
  lastHumidity := (congrArg State.lastHumidity hu.kept).trans h.lastHumidity
  lastTemperature := (congrArg State.lastTemperature hu.kept).trans h.lastTemperature

theorem Attempting.scan {e : ScanEnd} (hu : ScanEndedAs t e u) : Attempting s pin u where
  inv := hu.inv
  call := (congrArg (·.host.call) hu.kept).trans h.call
  pin := (congrArg State.pin hu.kept).trans h.pin
  lastHumidity := (congrArg State.lastHumidity hu.kept).trans h.lastHumidity
  lastTemperature := (congrArg State.lastTemperature hu.kept).trans h.lastTemperature

end

/-! ## The whole attempt: its parts one after the other -/

/-- R87, R90: after its tick steps the handshake is at the start of a scan. -/
theorem handshake_to_scan {s : State} {q rest : List PortsIn} (h : s.Inv) (hc : s.host.call = none)
    (hp : s.phase = .driveLow) (hdelay : s.delay.toNat = Config.settleTicks) (hq : s.script = q ++ rest)
    (hr : NoReset q) (hticks : ticks q = Config.settleTicks + Config.releaseTicks) :
    ∃ t, Reaches q.length s t ∧ HandshakeTo s (ticks q) t ∧ t.phase = .scan ∧ t.slot = 0#7 ∧ t.counter = 0#8
      ∧ t.script = rest := by
  have hall : ticks q = ticksToScan s := by rw [ticksToScan_of_driveLow hp, hdelay, hticks]
  obtain ⟨t, hreach, ht, hrest⟩ := handshake_run h hc (.inl hp) hq hr hall.le
  obtain ⟨hslot, hcounter, -, -⟩ := h.freshWhileDriven (.inl hp)
  exact ⟨t, hreach, ht, ht.scan hall, (congrArg State.slot ht.kept).trans hslot,
    (congrArg State.counter ht.kept).trans hcounter, hrest⟩

/-- R90, R92: at the start of a scan nothing is received, and the loop that is left is the whole one. -/
theorem State.Inv.scan_start {s : State} (h : s.Inv) (hp : s.phase = .scan) (hslot : s.slot = 0#7)
    (hcounter : s.counter = 0#8) :
    Received s [] ∧ ∀ stream, loopFrom s [] stream = scanStream stream := by
  have hbits : s.bitCount.toNat = 0 := by rw [h.bitCountOfSlot, hslot]; rfl
  have hlast : s.lastState = true := by rw [h.parityInScan hp, hslot]; rfl
  refine ⟨received_nil h.frameHolds hbits, fun stream => ?_⟩
  rw [loopFrom_of_scan hp, hslot, hcounter, hlast]
  exact (scanLoop_eq_slotLoop (Nat.zero_le 84) true [] stream).symm

/-- The port values of a whole attempt (R116): `a` commands it, `h` are those of the handshake, `q` those of the scan,
and `p` those of the clock step in VALIDATE. -/
structure AttemptPorts (a p : PortsIn) (h q : List PortsIn) : Prop where
  command : a.rst = false ∧ a.start = true
  handshake : NoReset h ∧ ticks h = Config.settleTicks + Config.releaseTicks
  scan : NoReset q ∧ EndsWithTick q
  last : p.rst = false

/-- R116: the command, the handshake, the scan and the step in VALIDATE, one after the other. -/
theorem attempt_run {s : State} {a p : PortsIn} {h q rest : List PortsIn} {e : ScanEnd} (hports : AttemptPorts a p h q)
    (hinv : s.Inv) (hp : s.phase = .idle) (hquiet : s.host = HostState.quiet)
    (hq : s.script = a :: (h ++ (q ++ p :: rest))) (he : scanStream (samples q) = some e) (hrest : e.rest = []) :
    ∃ t, Reaches (1 + h.length + q.length + 1) s t ∧ t.phase = .idle ∧ t.done = true ∧ t.script = rest
      ∧ t.pin = a.pin
      ∧ (t.ok, t.lastHumidity, t.lastTemperature) = resultOfBits e.bits s.lastHumidity s.lastTemperature := by
  obtain ⟨⟨hra, hstart⟩, ⟨hrh, hticks⟩, ⟨hrq, hend⟩, hrp⟩ := hports
  obtain ⟨u, hst, hu, hpu, hdelay, hqu⟩ := attempting_of_command hinv hp hquiet hq hra hstart
  obtain ⟨v, hreachv, huv, hpv, hslot, hcounter, hqv⟩ := handshake_to_scan hu.inv hu.call hpu hdelay hqu hrh hticks
  have hv := hu.handshake huv
  obtain ⟨hnil, hloop⟩ := hv.inv.scan_start hpv hslot hcounter
  obtain ⟨w, hreachw, hvw, hqw⟩ := scan_run hv.inv hv.call (.inl hpv) hnil hqv hrq (fun _ => hend)
    ((hloop _).trans he) hrest
  have hw := hv.scan hvw
  have hdecide := step_decided (dueCall_of_call_none hw.call) (by rw [clockEdge_rst, comingPorts_cons hqw, hrp])
    hvw.phase
  refine ⟨_, reaches_add (reaches_add (reaches_add (reaches_one hst) hreachv) hreachw) (reaches_one hdecide), rfl, rfl,
    (clockEdge_script w).trans (congrArg List.tail hqw), hw.pin, ?_⟩
  rw [← hw.lastHumidity, ← hw.lastTemperature]
  exact Received.decided_eq (c := clockEdge w) ⟨hvw.received.count, hvw.received.bytes⟩

/-- Settles O54, by the run of the whole attempt. -/
theorem attemptIsAFunctionOfTheStream : Obligations.AttemptIsAFunctionOfTheStream := by
  intro s a p h q rest e hinv hp hquiet hq hra hstart hrh hticks _ hrq hend hrp he hrest
  obtain ⟨t, hreach, hpt, hdone, hscript, -, hresult⟩ :=
    attempt_run ⟨⟨hra, hstart⟩, ⟨hrh, hticks⟩, ⟨hrq, hend⟩, hrp⟩ hinv hp hquiet hq he hrest
  exact ⟨t, hreach, hpt, hdone, hscript, hresult⟩

/-- Settles O56: with the premises of R143 and R147 the samples of the scan are the levels on the wire of the pin. -/
theorem attemptReadsItsSetUpPin : Obligations.AttemptReadsItsSetUpPin := by
  intro e s a p h q rest x hinv hp hquiet hq hra hstart hrh hticks _ hrq hend hrp hset hex hfeeds he hrest
  rw [← hfeeds hset hex] at he
  obtain ⟨t, hreach, hpt, hdone, -, hpin, hresult⟩ :=
    attempt_run ⟨⟨hra, hstart⟩, ⟨hrh, hticks⟩, ⟨hrq, hend⟩, hrp⟩ hinv hp hquiet hq he hrest
  exact ⟨t, hreach, hpt, hdone, hpin, hresult⟩

end Sys2Proof.Machine

/-! PROOFS. The host's retry (spec/45_retry_read.md R118 to R122) and its pin (spec/70_reset_and_hazards.md R143). -/

namespace Sys2Proof.Machine

/-! ## The host's move while a `READ` is in progress (R118): one rule per line of the pseudocode -/

theorem dueCall_of_reading {s : State} {r : ReadProgress} (h : s.host.reading = some r) : dueCall s = none := by
  simp [dueCall, h]

/-- "wait until busy = 0" -/
theorem hostGive_busy {s : State} (hb : s.phase ≠ .idle) (r : ReadProgress) (p : PortsIn) :
    hostGive s r p = ({ s.host with reading := some { r with awaiting := false } }, { p with start := false }) :=
  if_pos ((busy_iff s).2 hb)

/-- "give ATTEMPT pin" -/
theorem hostGive_idle {s : State} (hp : s.phase = .idle) (r : ReadProgress) (p : PortsIn) :
    hostGive s r p =
      ({ s.host with reading := some { r with awaiting := true } }, { p with start := true, pin := r.pin }) :=
  if_neg fun hb => (busy_iff s).1 hb hp

section
variable {s : State} {r : ReadProgress} (hread : s.host.reading = some r) (p : PortsIn)
include hread

theorem hostMove_before_attempt (ha : r.awaiting = false) : hostMove s p = hostGive s r p := by
  simp [hostMove, hread, ha]

/-- "wait until busy = 0", at a step with `busy` = 1. -/
theorem hostMove_while_busy (ha : r.awaiting = false) (hb : s.phase ≠ .idle) :
    hostMove s p = (s.host, { p with start := false }) := by
  have hr : { r with awaiting := false } = r := ha ▸ rfl
  rw [hostMove_before_attempt hread p ha, hostGive_busy hb, hr, ← hread]

/-- "wait until done = 1", at a step with `done` = 0. -/
theorem hostMove_before_done (ha : r.awaiting = true) (hd : s.done = false) :
    hostMove s p = (s.host, { p with start := false }) := by
  simp [hostMove, hread, ha, hd]

/-- "return", after a success or after the twentieth attempt. -/
theorem hostMove_at_end (ha : r.awaiting = true) (hd : s.done = true) (hend : s.ok = true ∨ r.attempts + 1 = 20) :
    hostMove s p = hostReturn s s.ok (r.attempts + 1) p := by
  cases hok : s.ok with
  | true => simp [hostMove, hread, ha, hd, hok]
  | false =>
    have hn : r.attempts + 1 = 20 := by simpa [hok] using hend
    simp [hostMove, hread, ha, hd, hok, hn, Config.maxAttempts]

/-- "repeat", after a failure that is not the twentieth. -/
theorem hostMove_after_failure (ha : r.awaiting = true) (hd : s.done = true) (hok : s.ok = false)
    (hn : r.attempts + 1 ≠ 20) : hostMove s p = hostGive s { r with attempts := r.attempts + 1 } p := by
  simp [hostMove, hread, ha, hd, hok, hn, Config.maxAttempts]

end

/-! ## `READ` clock step by clock step -/

/-- R118, R119: with `busy` = 0 the `ATTEMPT` that the host gives is run at the very step. -/
theorem step_of_give {s : State} {r : ReadProgress} (hd : dueCall s = none) (hr : (clockEdge s).ports.rst = false)
    (hp : s.phase = .idle) (hm : hostMove s (comingPorts s) = hostGive s r (comingPorts s)) :
    step s = exec (.attempt r.pin) (clockEdge s)
      ∧ (clockEdge s).host.reading = some { r with awaiting := true } := by
  rw [hostGive_idle hp] at hm
  constructor
  · have hports : (clockEdge s).ports = { comingPorts s with start := true, pin := r.pin } :=
      congrArg Prod.snd hm
    rw [step_of_idle hd hr hp, hports, if_pos rfl]
  · rw [clockEdge_host, hm]

/-- Settles O25: `execRead` sets the host's fields alone, and `step` runs the call that is due. -/
theorem readBeginsTheRetry : Obligations.ReadBeginsTheRetry :=
  ⟨fun _ _ => ⟨_, rfl, rfl, rfl, rfl, rfl⟩,
    fun _ _ hread hcall => step_of_call (by simp [dueCall, hread, hcall])⟩

/-- Settles O26, by the rule of the host's move for each line of the pseudocode. -/
theorem readFollowsItsPseudocode : Obligations.ReadFollowsItsPseudocode := by
  intro s r hread hr
  have hd := dueCall_of_reading hread
  rw [clockEdge_host, clockEdge_ports]
  refine ⟨fun ha hb => ?_, fun ha hp => ?_, fun ha hdone => ?_, fun ha hdone hok => ?_, fun ha hdone hok hn => ?_,
    fun ha hdone hok hn hp => ?_⟩
  · rw [hostMove_while_busy hread _ ha hb]
    exact ⟨rfl, rfl⟩
  · exact step_of_give hd hr hp (hostMove_before_attempt hread _ ha)
  · rw [hostMove_before_done hread _ ha hdone]
    exact ⟨rfl, rfl⟩
  · rw [hostMove_at_end hread _ ha hdone (.inl hok), hok]
    exact ⟨rfl, rfl⟩
  · rw [hostMove_at_end hread _ ha hdone (.inr (by omega)), hok, hn]
    exact ⟨rfl, rfl⟩
  · exact step_of_give hd hr hp (hostMove_after_failure hread _ ha hdone hok (by omega))

/-! ## Runs without reset -/

/-- Only reset changes what the host's move left. -/
theorem host_of_step {s u : State} (hd : dueCall s = none) (hr : (clockEdge s).ports.rst = false)
    (hst : step s = .next u) : u.host = (hostMove s (comingPorts s)).1 := by
  rw [(blockMove_of_step hd hst).host, hr]
  rfl

theorem BlockMove.script {c t : State} (hm : BlockMove c t) : t.script = c.script := by
  cases hm <;> rfl

/-- R23: without reset only `ATTEMPT` writes `PIN`, and without `start` none is given. -/
theorem BlockMove.pin {c t : State} (hm : BlockMove c t) (hr : c.ports.rst = false) (hs : c.ports.start = false) :
    t.pin = c.pin := by
  cases hm with
  | reset hr' => exact absurd (hr.symm.trans hr') nofun
  | attempt _ _ hs' => exact absurd (hs.symm.trans hs') nofun
  | nop | hold | wait | raise | release | count | tmo | skip | shift | commit | reject => rfl

/-- A run without reset and without a call of `READ`: its first step, and the run that is left. -/
theorem reaches_cons_of_noReset {s t : State} {p : PortsIn} {q rest : List PortsIn} (hc : s.host.call = none)
    (hq : s.script = p :: q ++ rest) (hr : NoReset (p :: q)) (h : Reaches (p :: q).length s t) :
    ∃ u, step s = .next u ∧ (clockEdge s).ports.rst = false ∧ u.host.call = none ∧ u.script = q ++ rest
      ∧ NoReset q ∧ Reaches q.length u t := by
  obtain ⟨hrst, hr⟩ := (noReset_cons p q).1 hr
  obtain ⟨u, hst, hreach⟩ := (reaches_succ q.length s t).1 h
  have hm := blockMove_of_step (dueCall_of_call_none hc) hst
  exact ⟨u, hst, by rw [clockEdge_rst, comingPorts_cons hq, hrst], call_of_step hst hc,
    by rw [hm.script, clockEdge_script, hq]; rfl, hr, hreach⟩

/-- What every clock step without reset keeps, a run without reset and without a call of `READ` keeps. -/
theorem run_keeps {P : State → Prop}
    (keep : ∀ s u, P s → dueCall s = none → (clockEdge s).ports.rst = false → step s = .next u → P u)
    {s t : State} {q rest : List PortsIn} (hc : s.host.call = none) (hq : s.script = q ++ rest) (hr : NoReset q)
    (hreach : Reaches q.length s t) (h : P s) : P t := by
  induction q generalizing s with
  | nil => exact (reaches_zero s t).1 hreach ▸ h
  | cons p q ih =>
    obtain ⟨u, hst, hrst, hcu, hqu, hrq, hreach⟩ := reaches_cons_of_noReset hc hq hr hreach
    exact ih hcu hqu hrq hreach (keep s u h (dueCall_of_call_none hc) hrst hst)

/-- R122: with no `READ` in progress the host stays as it is, whatever attempts the environment gives. -/
theorem host_of_run {s t : State} {q rest : List PortsIn} (hread : s.host.reading = none) (hc : s.host.call = none)
    (hq : s.script = q ++ rest) (hr : NoReset q) (hreach : Reaches q.length s t) : t.host = s.host := by
  refine run_keeps (P := fun u => u.host = s.host) (fun u v hu hd hrst hst => ?_) hc hq hr hreach rfl
  rw [host_of_step hd hrst hst, hostMove_quiet (hu ▸ hread), hu]

/-! ## What `READ` makes of the outcomes shown (R118, R121) -/

theorem outcomesShown_succ {s u : State} (hst : step s = .next u) (k : Nat) :
    outcomesShown (k + 1) s = outcomeShown s ++ outcomesShown k u := by
  rw [outcomesShown, hst]

theorem outcomeShown_of_not_done {s : State} (hd : s.done = false) : outcomeShown s = [] := by
  simp [outcomeShown, hd]

theorem outcomeShown_of_done {s : State} (hd : s.done = true) :
    outcomeShown s = [{ ok := s.ok, humidity := s.lastHumidity, temperature := s.lastTemperature }] := by
  simp [outcomeShown, hd]

/-- The loop of R118 ends with this outcome. -/
theorem readOutcome_cons_end {n : Nat} {o : AttemptOutcome} (h : o.ok = true ∨ n + 1 = 20)
    (os : List AttemptOutcome) :
    readOutcome n (o :: os) =
      some { success := o.ok, humidity := o.humidity, temperature := o.temperature, attempts := n + 1 } := by
  cases hok : o.ok with
  | true => simp [readOutcome, hok]
  | false =>
    have hn : n + 1 = 20 := by simpa [hok] using h
    simp [readOutcome, hok, hn, Config.maxAttempts]

/-- The loop of R118 goes on after this outcome. -/
theorem readOutcome_cons_failure {n : Nat} {o : AttemptOutcome} (hok : o.ok = false) (hn : n + 1 ≠ 20)
    (os : List AttemptOutcome) : readOutcome n (o :: os) = readOutcome (n + 1) os := by
  simp [readOutcome, hok, hn, Config.maxAttempts]

/-- The host has done with a `READ` that stood at `r` what the loop of R118 makes of the outcomes `os` shown since. -/
structure ReadAgrees (r : ReadProgress) (os : List AttemptOutcome) (host : HostState) : Prop where
  ended : ∀ result, readOutcome r.attempts os = some result → host.reading = none ∧ host.returned = some result
  goesOn : readOutcome r.attempts os = none → host.reading = some { r with attempts := r.attempts + os.length }

section
variable {r : ReadProgress} {o : AttemptOutcome} {os : List AttemptOutcome} {host : HostState}

theorem readAgrees_nil (h : host.reading = some r) : ReadAgrees r [] host := ⟨nofun, fun _ => h⟩

theorem readAgrees_cons_end (hend : o.ok = true ∨ r.attempts + 1 = 20) (hread : host.reading = none)
    (hret : host.returned = some
      { success := o.ok, humidity := o.humidity, temperature := o.temperature, attempts := r.attempts + 1 }) :
    ReadAgrees r (o :: os) host where
  ended _ h := ⟨hread, hret.trans ((readOutcome_cons_end hend os).symm.trans h)⟩
  goesOn h := nomatch (readOutcome_cons_end hend os).symm.trans h

theorem readAgrees_cons_failure (hok : o.ok = false) (hn : r.attempts + 1 ≠ 20)
    (h : ReadAgrees { r with attempts := r.attempts + 1 } os host) : ReadAgrees r (o :: os) host := by
  have hout := readOutcome_cons_failure hok hn os
  refine ⟨fun result hres => h.ended result (hout ▸ hres), fun hnone => ?_⟩
  rw [h.goesOn (hout ▸ hnone), List.length_cons, Nat.add_assoc, Nat.add_comm 1]

end

/-- R118 over a run without reset, from any state in which the host waits for an attempt. -/
theorem read_run {s t : State} {r : ReadProgress} {q rest : List PortsIn} (h : s.Inv) (hc : s.host.call = none)
    (hread : s.host.reading = some r) (ha : r.awaiting = true) (hq : s.script = q ++ rest) (hr : NoReset q)
    (hreach : Reaches q.length s t) : ReadAgrees r (outcomesShown q.length s) t.host := by
  induction q generalizing s r with
  | nil => exact readAgrees_nil ((reaches_zero s t).1 hreach ▸ hread)
  | cons p q ih =>
    obtain ⟨u, hst, hrst, hcu, hqu, hrq, hreach⟩ := reaches_cons_of_noReset hc hq hr hreach
    have hu := stepKeepsTheInvariant s u h hst
    have hhost := host_of_step (dueCall_of_call_none hc) hrst hst
    rw [List.length_cons, outcomesShown_succ hst]
    cases hd : s.done with
    | false =>
      rw [hostMove_before_done hread _ ha hd] at hhost
      rw [outcomeShown_of_not_done hd]
      exact ih hu hcu (hhost ▸ hread) ha hqu hrq hreach
    | true =>
      rw [outcomeShown_of_done hd]
      by_cases hend : s.ok = true ∨ r.attempts + 1 = 20
      · rw [hostMove_at_end hread _ ha hd hend] at hhost
        have hreadu : u.host.reading = none := by rw [hhost]; rfl
        have hkept : t.host = u.host := host_of_run hreadu hcu hqu hrq hreach
        exact readAgrees_cons_end hend (hkept ▸ hreadu) (by rw [hkept, hhost]; rfl)
      · obtain ⟨hok, hn⟩ := not_or.1 hend
        rw [hostMove_after_failure hread _ ha hd (Bool.eq_false_iff.2 hok) hn, hostGive_idle (h.doneIdle hd)] at hhost
        have hreadu : u.host.reading = some { r with attempts := r.attempts + 1, awaiting := true } := by rw [hhost]
        exact readAgrees_cons_failure (Bool.eq_false_iff.2 hok) hn (ha ▸ ih hu hcu hreadu rfl hqu hrq hreach)

/-- Settles O27, by the run from a `READ` with no attempt finished. -/
theorem readReturnsTheFirstSuccess : Obligations.ReadReturnsTheFirstSuccess := by
  intro s t r q rest h hc hread ha hn hq hr hreach
  have hagrees := read_run h hc hread ha hq hr hreach
  split
  case h_1 result hres => exact hagrees.ended result (hn ▸ hres)
  case h_2 hnone =>
    rw [hagrees.goesOn (hn ▸ hnone), hn, Nat.zero_add]

/-! ## The pin of a `READ` (R118, R143) -/

/-- The `READ` in progress, if there is one, has the operand `pin`, and its attempt, once given, is on that pin. -/
def ReadOn (pin : PinId) (s : State) : Prop :=
  ∀ r, s.host.reading = some r → r.pin = pin ∧ (r.awaiting = true → s.pin = pin)

theorem readOn_of_reading_none {s : State} (h : s.host.reading = none) (pin : PinId) : ReadOn pin s :=
  fun _ hr => nomatch h.symm.trans hr

/-- Whether the host waits for `busy` = 0 or gives the next `ATTEMPT`, its operand stays. -/
theorem readOn_of_give {pin : PinId} {s u : State} {r : ReadProgress} (hd : dueCall s = none)
    (hr : (clockEdge s).ports.rst = false) (hst : step s = .next u)
    (hm : hostMove s (comingPorts s) = hostGive s r (comingPorts s)) (hpin : r.pin = pin) : ReadOn pin u := by
  intro r' hread
  rw [host_of_step hd hr hst, hm, hostGive_reading, Option.some_inj] at hread
  subst hread
  refine ⟨hpin, fun ha => ?_⟩
  have hp : s.phase = .idle := by simpa [busy] using ha
  have hattempt := (step_of_give hd hr hp hm).1
  injection hst.symm.trans hattempt with hu
  rw [hu]
  exact hpin

/-- R23, R118: every clock step without reset keeps the pin of the `READ`. -/
theorem readOn_of_step {pin : PinId} {s u : State} (h : ReadOn pin s) (hd : dueCall s = none)
    (hr : (clockEdge s).ports.rst = false) (hst : step s = .next u) : ReadOn pin u := by
  have hhost := host_of_step hd hr hst
  rcases hostMove_cases s (comingPorts s) with
    ⟨hread, hm⟩ | ⟨r, hread, ⟨-, -, hm⟩ | ⟨-, -, -, hm⟩ | ⟨-, -, -, -, hm⟩ | ⟨-, hm⟩⟩
  · exact readOn_of_reading_none (by rw [hhost, hm, hread]) pin
  · have hpin : u.pin = s.pin := (blockMove_of_step hd hst).pin hr (by rw [clockEdge_ports, hm])
    intro r' hread'
    rw [hpin]
    exact h r' (by rw [← hread', hhost, hm])
  · exact readOn_of_reading_none (by rw [hhost, hm]; rfl) pin
  · exact readOn_of_give hd hr hst hm (h r hread).1
  · exact readOn_of_give hd hr hst hm (h r hread).1

/-- Settles O57: `ReadOn` holds where no attempt is given yet, and the run keeps it. -/
theorem readStaysOnItsSetUpPin : Obligations.ReadStaysOnItsSetUpPin := by
  intro e s t r r' q rest hc hread ha hq hr hreach hread' hset
  have hstart : ReadOn r.pin s := by
    intro x hx
    obtain rfl := Option.some.inj (hread.symm.trans hx)
    exact ⟨rfl, fun ht => absurd (ha.symm.trans ht) nofun⟩
  obtain ⟨hoperand, hpin⟩ := run_keeps (fun _ _ => readOn_of_step) hc hq hr hreach hstart r' hread'
  exact ⟨hoperand, fun hw => ⟨hpin hw, show SetUpPremise e t.pin from hpin hw ▸ hset⟩⟩

end Sys2Proof.Machine

/-! PROOFS. An attempt ends (spec/70_reset_and_hazards.md R149, R150). -/

namespace Sys2Proof.Machine

/-! ## Coming port values, cut into parts -/

theorem ticks_append (q r : List PortsIn) : ticks (q ++ r) = ticks q + ticks r := by simp [ticks]

theorem noReset_append (q r : List PortsIn) : NoReset (q ++ r) ↔ NoReset q ∧ NoReset r := List.forall_mem_append

/-- Any number of tick steps up to all of them is taken by a first part of the port values. -/
theorem exists_append_of_le_ticks {n : Nat} {q : List PortsIn} (hn : n ≤ ticks q) :
    ∃ a b, q = a ++ b ∧ ticks a = n := by
  induction q generalizing n with
  | nil => exact ⟨[], [], rfl, (Nat.le_zero.1 hn).symm⟩
  | cons p q ih =>
    rcases n with _ | n
    · exact ⟨[], p :: q, rfl, rfl⟩
    · rw [ticks_cons] at hn
      obtain ⟨a, b, hq, ha⟩ := ih (n := n + 1 - if p.tick then 1 else 0) (by omega)
      refine ⟨p :: a, b, congrArg (p :: ·) hq, ?_⟩
      rw [ticks_cons, ha]
      split <;> omega

/-- A run without reset and without a call of `READ` takes one port value at each step, and none is called in it. -/
theorem script_of_run {s t : State} {q rest : List PortsIn} (hc : s.host.call = none) (hq : s.script = q ++ rest)
    (hr : NoReset q) (hreach : Reaches q.length s t) : t.host.call = none ∧ t.script = rest := by
  induction q generalizing s with
  | nil => exact (reaches_zero s t).1 hreach ▸ ⟨hc, hq⟩
  | cons p q ih =>
    obtain ⟨u, -, -, hcu, hqu, hrq, hreach⟩ := reaches_cons_of_noReset hc hq hr hreach
    exact ih hcu hqu hrq hreach

/-! ## From a busy state to VALIDATE, and the step out of it -/

/-- R22, R87: the durations bound what is left of the handshake. -/
theorem State.Inv.ticksToScan_le {s : State} (h : s.Inv) :
    ticksToScan s ≤ Config.settleTicks + Config.releaseTicks := by
  unfold ticksToScan
  split
  · next hp => exact Nat.add_le_add_right (h.delayLow hp) _
  · next hp => exact Nat.le_add_left_of_le (h.delayHigh hp)
  · exact Nat.zero_le _

/-- R87, R99: the rest of the handshake takes `ticksToScan` tick steps, and the tick steps after those end the scan. -/
theorem busy_reaches_validate {s : State} {q rest : List PortsIn} (h : s.Inv) (hc : s.host.call = none)
    (hb : s.phase ≠ .idle) (hq : s.script = q ++ rest) (hr : NoReset q)
    (hle : Config.settleTicks + Config.releaseTicks + 21675 ≤ ticks q) :
    ∃ k t, k ≤ q.length ∧ Reaches k s t ∧ t.phase = .validate := by
  have toScan (hp : s.phase = .driveLow ∨ s.phase = .driveHigh ∨ s.phase = .scan) :
      ∃ k t, k ≤ q.length ∧ Reaches k s t ∧ t.phase = .validate := by
    have hmost := h.ticksToScan_le
    obtain ⟨a, b, rfl, ha⟩ := exists_append_of_le_ticks (n := ticksToScan s) (q := q) (by omega)
    obtain ⟨hra, hrb⟩ := (noReset_append a b).1 hr
    rw [ticks_append] at hle
    rw [List.append_assoc] at hq
    obtain ⟨u, hreach, hu, hqu⟩ := handshake_run h hc hp hq hra ha.le
    obtain ⟨k, t, hk, hreach', ht⟩ :=
      scanEndsWithinItsBound u b rest hu.inv (hu.host ▸ hc) (hu.scan ha) hqu hrb (by omega)
    exact ⟨a.length + k, t, by rw [List.length_append]; omega, reaches_add hreach hreach', ht⟩
  cases hp : s.phase with
  | idle => exact absurd hp hb
  | driveLow => exact toScan (.inl hp)
  | driveHigh => exact toScan (.inr (.inl hp))
  | scan => exact toScan (.inr (.inr hp))
  | validate => exact ⟨0, s, Nat.zero_le _, (reaches_zero s s).2 rfl, hp⟩

/-- R114: the clock step in VALIDATE, at the first of the port values still to come, ends the attempt. -/
theorem validate_ends {s : State} {q rest : List PortsIn} {p : PortsIn} (hc : s.host.call = none)
    (hp : s.phase = .validate) (hq : s.script = q ++ p :: rest) (hr : NoReset q) (hrp : p.rst = false) :
    ∃ t, step s = .next t ∧ t.phase = .idle ∧ t.done = true := by
  have hrst : (comingPorts s).rst = false := by
    cases q with
    | nil => rw [comingPorts_cons hq, hrp]
    | cons p' q => rw [comingPorts_cons hq, ((noReset_cons p' q).1 hr).1]
  exact ⟨_, step_decided (dueCall_of_call_none hc) ((clockEdge_rst s).trans hrst) hp, rfl, rfl⟩

/-- Settles O52: a run to VALIDATE that leaves at least the last port value, and the clock step there. -/
theorem attemptEndsWithinItsBound : Obligations.AttemptEndsWithinItsBound := by
  intro s q rest p h hc hb hq hr hrp hle
  obtain ⟨k, u, hk, hreach, hu⟩ := busy_reaches_validate h hc hb hq hr hle
  rw [← List.take_append_drop k q] at hq hr
  obtain ⟨hrtaken, hrleft⟩ := (noReset_append _ _).1 hr
  rw [List.append_assoc] at hq
  obtain ⟨hcu, hqu⟩ := script_of_run hc hq hrtaken (by rwa [List.length_take_of_le hk])
  obtain ⟨t, hst, hpt, hdone⟩ := validate_ends hcu hu hqu hrleft hrp
  exact ⟨k + 1, t, Nat.succ_le_succ hk, reaches_add hreach (reaches_one hst), hpt, hdone⟩

end Sys2Proof.Machine

/-! PROOFS. The selection words of the test vectors (spec/95_test_vectors.md sections 2.2 to 2.4). -/

namespace Sys2Proof

/-- A word that the encoder gives decodes to its operation. -/
theorem decode_eq_of_encode_eq {w : SelWord} {op : Instr} (hw : encode op = w) (hop : op.wellFormed = true) :
    decode w = .ok op :=
  hw ▸ decodeOfEncodeIsTheOperation op hop

/-- Settles O35: thirteen words are the encoder's words of their operations. The `NOP` of T2 carries a pin (R60) and the
`TMO` of T12d carries the bit `f` (R63), which their rows do not look at. -/
theorem wordsOfTheVectorsDecode : Obligations.WordsOfTheVectorsDecode := by
  have nopWithPin : decode (.cmd 0b010101011#9) = .ok .nop := decode_cmdWord false 0xAB#8
  have tmoWithFull : decode (.slot 0b01101010011111110#17) = .ok (.tmo 84#7) :=
    (SlotSelects.tmo (i := 84#7) (c := 254#8) (f := true) (by decide) rfl).decode_eq
  refine ⟨?_, nopWithPin, ?_, ?_, ?_, ?_, ?_, tmoWithFull, ?_, ?_, ?_, ?_, ?_, ?_, ?_⟩ <;>
    exact decode_eq_of_encode_eq rfl rfl

end Sys2Proof
